-- ==== Sys2Proof/Word.lean ====
section
/-! DEFINITION. The word types of the machine. All quantities are unsigned (00_scope.md R7). -/

namespace Sys2Proof

/-- A memory cell, a general register, a timer: 8 bits (00_scope.md R5). -/
abbrev Byte := BitVec 8

/-- An instruction word, `PC`, `I`, a stack slot: 16 bits (00_scope.md R5). -/
abbrev Word := BitVec 16

/-- The index of a general register V0..VF; no value is illegal (10_state.md R21). -/
abbrev Reg := Fin 16

/-- The framebuffer, a 64 by 32 grid of pixel bits held row by row: pixel `(px, py)`, which is `FB[py * 64 + px]`, is
bit `px` of row `py` (10_state.md R35). -/
abbrev Frame := Vector (BitVec 64) 32

end Sys2Proof
end

