-- ==== Sys2Proof/Syntax.lean ====
section
/-! DEFINITION. The 35 instructions (30_encoding.md R90), one constructor per row of spec/opcode_table.json in
the table's order, and the nine operations of the host boundary (47_host_operations.md R185). -/

namespace Sys2Proof

/-- The instructions. Every operand field has exactly the values its bits can hold, and none of them is
illegal (10_state.md R21, 30_encoding.md R84). -/
inductive Instr where
  /-- `0000` NOP (R180) -/
  | nop
  /-- `00E0` CLS (R110) -/
  | cls
  /-- `00EE` RET (R111) -/
  | ret
  /-- `1nnn` JP nnn (R112) -/
  | jp (nnn : BitVec 12)
  /-- `2nnn` CALL nnn (R113) -/
  | call (nnn : BitVec 12)
  /-- `3xkk` SE Vx, kk (R120) -/
  | seImm (x : Reg) (kk : Byte)
  /-- `4xkk` SNE Vx, kk (R121) -/
  | sneImm (x : Reg) (kk : Byte)
  /-- `5xy0` SE Vx, Vy (R122) -/
  | seReg (x y : Reg)
  /-- `6xkk` LD Vx, kk (R130) -/
  | ldImm (x : Reg) (kk : Byte)
  /-- `7xkk` ADD Vx, kk (R131) -/
  | addImm (x : Reg) (kk : Byte)
  /-- `8xy0` LD Vx, Vy (R132) -/
  | ldReg (x y : Reg)
  /-- `8xy1` OR Vx, Vy (R133) -/
  | orReg (x y : Reg)
  /-- `8xy2` AND Vx, Vy (R134) -/
  | andReg (x y : Reg)
  /-- `8xy3` XOR Vx, Vy (R135) -/
  | xorReg (x y : Reg)
  /-- `8xy4` ADD Vx, Vy (R136) -/
  | addReg (x y : Reg)
  /-- `8xy5` SUB Vx, Vy (R137) -/
  | subReg (x y : Reg)
  /-- `8xy6` SHR Vx; `y` is encoded and is read only when `SHIFT_USES_VY` is true (R139) -/
  | shr (x y : Reg)
  /-- `8xy7` SUBN Vx, Vy (R138) -/
  | subnReg (x y : Reg)
  /-- `8xyE` SHL Vx; `y` is encoded and is read only when `SHIFT_USES_VY` is true (R140) -/
  | shl (x y : Reg)
  /-- `9xy0` SNE Vx, Vy (R123) -/
  | sneReg (x y : Reg)
  /-- `Annn` LD I, nnn (R150) -/
  | ldI (nnn : BitVec 12)
  /-- `Bnnn` JP V0, nnn (R114) -/
  | jpV0 (nnn : BitVec 12)
  /-- `Cxkk` RND Vx, kk (R141) -/
  | rnd (x : Reg) (kk : Byte)
  /-- `Dxyn` DRW Vx, Vy, n (R170) -/
  | drw (x y : Reg) (n : BitVec 4)
  /-- `Ex9E` SKP Vx (R124) -/
  | skp (x : Reg)
  /-- `ExA1` SKNP Vx (R125) -/
  | sknp (x : Reg)
  /-- `Fx07` LD Vx, DT (R160) -/
  | ldVxDt (x : Reg)
  /-- `Fx0A` LD Vx, K (R163) -/
  | ldVxKey (x : Reg)
  /-- `Fx15` LD DT, Vx (R161) -/
  | ldDtVx (x : Reg)
  /-- `Fx18` LD ST, Vx (R162) -/
  | ldStVx (x : Reg)
  /-- `Fx1E` ADD I, Vx (R151) -/
  | addI (x : Reg)
  /-- `Fx29` LD F, Vx (R152) -/
  | ldGlyph (x : Reg)
  /-- `Fx33` LD B, Vx (R153) -/
  | ldBcd (x : Reg)
  /-- `Fx55` LD [I], Vx (R154) -/
  | storeRegs (x : Reg)
  /-- `Fx65` LD Vx, [I] (R155) -/
  | loadRegs (x : Reg)
  deriving DecidableEq, Repr

/-- The row of spec/opcode_table.json an instruction belongs to, by its mnemonic. -/
def Instr.mnemonic : Instr → String
  | .nop => "NOP"
  | .cls => "CLS"
  | .ret => "RET"
  | .jp _ => "JP_nnn"
  | .call _ => "CALL_nnn"
  | .seImm _ _ => "SE_Vx__kk"
  | .sneImm _ _ => "SNE_Vx__kk"
  | .seReg _ _ => "SE_Vx__Vy"
  | .ldImm _ _ => "LD_Vx__kk"
  | .addImm _ _ => "ADD_Vx__kk"
  | .ldReg _ _ => "LD_Vx__Vy"
  | .orReg _ _ => "OR_Vx__Vy"
  | .andReg _ _ => "AND_Vx__Vy"
  | .xorReg _ _ => "XOR_Vx__Vy"
  | .addReg _ _ => "ADD_Vx__Vy"
  | .subReg _ _ => "SUB_Vx__Vy"
  | .shr _ _ => "SHR_Vx"
  | .subnReg _ _ => "SUBN_Vx__Vy"
  | .shl _ _ => "SHL_Vx"
  | .sneReg _ _ => "SNE_Vx__Vy"
  | .ldI _ => "LD_I__nnn"
  | .jpV0 _ => "JP_V0__nnn"
  | .rnd _ _ => "RND_Vx__kk"
  | .drw _ _ _ => "DRW_Vx__Vy__n"
  | .skp _ => "SKP_Vx"
  | .sknp _ => "SKNP_Vx"
  | .ldVxDt _ => "LD_Vx__DT"
  | .ldVxKey _ => "LD_Vx__K"
  | .ldDtVx _ => "LD_DT__Vx"
  | .ldStVx _ => "LD_ST__Vx"
  | .addI _ => "ADD_I__Vx"
  | .ldGlyph _ => "LD_F__Vx"
  | .ldBcd _ => "LD_B__Vx"
  | .storeRegs _ => "LD__I___Vx"
  | .loadRegs _ => "LD_Vx___I"

/-- The operations through which the host drives the core (47_host_operations.md R185). -/
inductive HostOp where
  /-- `construct()` (R202) -/
  | construct
  /-- `reset()` (R202, 70_reset_and_hazards.md R240) -/
  | reset
  /-- `load_program(bytes)` (R198) -/
  | loadProgram (bytes : List Byte)
  /-- `set_key(k, held)`; `k` is whatever number the host passes (R197) -/
  | setKey (k : Nat) (held : Bool)
  /-- `step(rnd)` (R187) -/
  | step (rnd : Byte)
  /-- `tick_timers()` (R195) -/
  | tickTimers
  /-- `framebuffer()` (R201) -/
  | framebuffer
  /-- `sound_active()` (R199) -/
  | soundActive
  /-- `ack_frame()` (R200) -/
  | ackFrame
  deriving DecidableEq, Repr

end Sys2Proof
end

