-- ==== Sys2Proof/Decode.lean ====
section
/-! DEFINITION. Decoding and encoding (30_encoding.md R80 to R94). -/

namespace Sys2Proof

/-- `x = op[11:8]`, a register index (30_encoding.md R84). -/
def fieldX (op : Word) : Reg := (op.extractLsb' 8 4).toFin

/-- `y = op[7:4]`, a register index (30_encoding.md R84). -/
def fieldY (op : Word) : Reg := (op.extractLsb' 4 4).toFin

/-- `n = op[3:0]`, which is also the nibble `d4` (30_encoding.md R84). -/
def fieldN (op : Word) : BitVec 4 := op.extractLsb' 0 4

/-- `kk = op[7:0]` (30_encoding.md R84). -/
def fieldKk (op : Word) : Byte := op.extractLsb' 0 8

/-- `nnn = op[11:0]` (30_encoding.md R84). -/
def fieldNnn (op : Word) : BitVec 12 := op.extractLsb' 0 12

/-- The family `d1 = 0`: three whole words, nothing else (30_encoding.md R92, R94). -/
def decodeFixed (op : Word) : Option Instr :=
  if op = 0x0000 then some .nop
  else if op = 0x00E0 then some .cls
  else if op = 0x00EE then some .ret
  else none

/-- The family `d1 = 8`, told apart by `d4` (30_encoding.md R90 rows 11 to 19, R92). -/
def decodeAlu (op : Word) : Option Instr :=
  match (fieldN op).toNat with
  | 0x0 => some (.ldReg (fieldX op) (fieldY op))
  | 0x1 => some (.orReg (fieldX op) (fieldY op))
  | 0x2 => some (.andReg (fieldX op) (fieldY op))
  | 0x3 => some (.xorReg (fieldX op) (fieldY op))
  | 0x4 => some (.addReg (fieldX op) (fieldY op))
  | 0x5 => some (.subReg (fieldX op) (fieldY op))
  | 0x6 => some (.shr (fieldX op) (fieldY op))
  | 0x7 => some (.subnReg (fieldX op) (fieldY op))
  | 0xE => some (.shl (fieldX op) (fieldY op))
  | _ => none

/-- The family `d1 = E`, told apart by the whole low byte (30_encoding.md R90 rows 25, 26, R92). -/
def decodeKeySkip (op : Word) : Option Instr :=
  if fieldKk op = 0x9E then some (.skp (fieldX op))
  else if fieldKk op = 0xA1 then some (.sknp (fieldX op))
  else none

/-- The family `d1 = F`, told apart by the whole low byte (30_encoding.md R90 rows 27 to 35, R92). -/
def decodeMisc (op : Word) : Option Instr :=
  if fieldKk op = 0x07 then some (.ldVxDt (fieldX op))
  else if fieldKk op = 0x0A then some (.ldVxKey (fieldX op))
  else if fieldKk op = 0x15 then some (.ldDtVx (fieldX op))
  else if fieldKk op = 0x18 then some (.ldStVx (fieldX op))
  else if fieldKk op = 0x1E then some (.addI (fieldX op))
  else if fieldKk op = 0x29 then some (.ldGlyph (fieldX op))
  else if fieldKk op = 0x33 then some (.ldBcd (fieldX op))
  else if fieldKk op = 0x55 then some (.storeRegs (fieldX op))
  else if fieldKk op = 0x65 then some (.loadRegs (fieldX op))
  else none

/-- Decoding of one instruction word, dispatching on the nibble `d1` and, inside the families `0`, `5`, `8`, `9`,
`E` and `F`, on the bits that carry no operand (30_encoding.md R80, R81, R92). `none` is an unimplemented word (R94).
It reads nothing but the word (R81). -/
def decodeWord (op : Word) : Option Instr :=
  match (op.extractLsb' 12 4).toNat with
  | 0x0 => decodeFixed op
  | 0x1 => some (.jp (fieldNnn op))
  | 0x2 => some (.call (fieldNnn op))
  | 0x3 => some (.seImm (fieldX op) (fieldKk op))
  | 0x4 => some (.sneImm (fieldX op) (fieldKk op))
  | 0x5 => if fieldN op = 0 then some (.seReg (fieldX op) (fieldY op)) else none
  | 0x6 => some (.ldImm (fieldX op) (fieldKk op))
  | 0x7 => some (.addImm (fieldX op) (fieldKk op))
  | 0x8 => decodeAlu op
  | 0x9 => if fieldN op = 0 then some (.sneReg (fieldX op) (fieldY op)) else none
  | 0xA => some (.ldI (fieldNnn op))
  | 0xB => some (.jpV0 (fieldNnn op))
  | 0xC => some (.rnd (fieldX op) (fieldKk op))
  | 0xD => some (.drw (fieldX op) (fieldY op) (fieldN op))
  | 0xE => decodeKeySkip op
  | 0xF => decodeMisc op
  | _ => none

/-- Why a sequence of bytes is no instruction. -/
inductive DecodeError where
  /-- The word matches no row of the opcode map (30_encoding.md R94). -/
  | unimplemented (op : Word)
  /-- Fewer than two bytes: every instruction is two bytes long (30_encoding.md R82). -/
  | truncated
  deriving DecidableEq, Repr

/-- The instruction word of two bytes as they lie in memory: the first is the high byte (20_memory.md R54, R55). -/
def wordOfBytes (high low : Byte) : Word := high ++ low

/-- Decoding of a sequence of bytes: the instruction at its head and the rest. -/
def decode : List Byte → Except DecodeError (Instr × List Byte)
  | high :: low :: rest =>
    match decodeWord (wordOfBytes high low) with
    | some i => .ok (i, rest)
    | none => .error (.unimplemented (wordOfBytes high low))
  | [_] | [] => .error .truncated

/-- A register index as a nibble of the word. -/
def nibble (x : Reg) : BitVec 4 := BitVec.ofFin x

/-- Format `NNN` (30_encoding.md R83). -/
def encNnn (d1 : BitVec 4) (nnn : BitVec 12) : Word := d1 ++ nnn

/-- Format `XKK` (30_encoding.md R83). -/
def encXkk (d1 : BitVec 4) (x : Reg) (kk : Byte) : Word := (d1 ++ nibble x) ++ kk

/-- Formats `XY` and `XYN` (30_encoding.md R83). -/
def encXyn (d1 : BitVec 4) (x y : Reg) (n : BitVec 4) : Word := (d1 ++ nibble x) ++ (nibble y ++ n)

/-- The word of an instruction (30_encoding.md R83, R84, R90). -/
def encode : Instr → Word
  | .nop => 0x0000
  | .cls => 0x00E0
  | .ret => 0x00EE
  | .jp nnn => encNnn 0x1 nnn
  | .call nnn => encNnn 0x2 nnn
  | .seImm x kk => encXkk 0x3 x kk
  | .sneImm x kk => encXkk 0x4 x kk
  | .seReg x y => encXyn 0x5 x y 0x0
  | .ldImm x kk => encXkk 0x6 x kk
  | .addImm x kk => encXkk 0x7 x kk
  | .ldReg x y => encXyn 0x8 x y 0x0
  | .orReg x y => encXyn 0x8 x y 0x1
  | .andReg x y => encXyn 0x8 x y 0x2
  | .xorReg x y => encXyn 0x8 x y 0x3
  | .addReg x y => encXyn 0x8 x y 0x4
  | .subReg x y => encXyn 0x8 x y 0x5
  | .shr x y => encXyn 0x8 x y 0x6
  | .subnReg x y => encXyn 0x8 x y 0x7
  | .shl x y => encXyn 0x8 x y 0xE
  | .sneReg x y => encXyn 0x9 x y 0x0
  | .ldI nnn => encNnn 0xA nnn
  | .jpV0 nnn => encNnn 0xB nnn
  | .rnd x kk => encXkk 0xC x kk
  | .drw x y n => encXyn 0xD x y n
  | .skp x => encXkk 0xE x 0x9E
  | .sknp x => encXkk 0xE x 0xA1
  | .ldVxDt x => encXkk 0xF x 0x07
  | .ldVxKey x => encXkk 0xF x 0x0A
  | .ldDtVx x => encXkk 0xF x 0x15
  | .ldStVx x => encXkk 0xF x 0x18
  | .addI x => encXkk 0xF x 0x1E
  | .ldGlyph x => encXkk 0xF x 0x29
  | .ldBcd x => encXkk 0xF x 0x33
  | .storeRegs x => encXkk 0xF x 0x55
  | .loadRegs x => encXkk 0xF x 0x65

/-- The two bytes of a word as they lie in memory, high byte first (20_memory.md R55). -/
def wordBytes (op : Word) : List Byte := [op.extractLsb' 8 8, op.extractLsb' 0 8]

/-- The bytes of an instruction as they lie in memory. -/
def encodeBytes (i : Instr) : List Byte := wordBytes (encode i)

/-- The word of the opcode table's numbering: the low `nbits` bits of `w`, bits above them zero. -/
def tableWord (nbits w : Nat) : Word := BitVec.ofNat 16 (w % 2 ^ nbits)

/-- What the decoder reads from the instruction whose bits, numbered as spec/opcode_table.json numbers them, are `w`:
the word's two bytes are laid out as in memory and given to `decode`. -/
def decodeTableWord (nbits w : Nat) : Option Instr :=
  match decode (wordBytes (tableWord nbits w)) with
  | .ok (i, _) => some i
  | .error _ => none

end Sys2Proof
end

