-- ==== Sys2Proof/Machine/State.lean ====
section
/-! DEFINITION. The state of the core (10_state.md R20), the reasons an operation ends in a fault (60_exceptions.md
R210) or is refused (47_host_operations.md R186), and the state after reset (70_reset_and_hazards.md R240). -/

namespace Sys2Proof.Machine

/-- The fatal faults, one constructor per cause of 60_exceptions.md R210, each carrying what `FLT` records.
A fault is a terminal outcome that carries `FLT` and no successor state (R216), so nothing can be proved of the
other elements after it: every one of them is safe. -/
inductive Fault where
  /-- Cause 1. Raised by decode on every word outside the opcode map (30_encoding.md R94). Safe. -/
  | unimplementedInstruction (opcode : Word)
  /-- Cause 2. Raised by `2nnn` when all 16 stack slots are occupied (40_flow_control.md R113). Safe. -/
  | stackOverflow (opcode : Word)
  /-- Cause 3. Raised by `00EE` when the stack is empty (40_flow_control.md R111). Safe. -/
  | stackUnderflow (opcode : Word)
  /-- Cause 4. Raised by the fetch (then there is no opcode), `Dxyn`, `Fx33`, `Fx55` and `Fx65` at the first
  address above 0xFFF (20_memory.md R52 to R54). Safe. -/
  | memoryOutOfBounds (opcode : Option Word) (addr : Nat)
  /-- Cause 5. Raised by `Ex9E` and `ExA1` when `V[x] > 15` (41_conditional_skip.md R124, R125). Safe. -/
  | keyIndexOutOfRange (opcode : Word) (addr : Nat)
  /-- Cause 6. Raised by `load_program` when the image is longer than 3584 bytes (47_host_operations.md R198). Safe. -/
  | programTooLarge (addr : Nat)
  /-- Cause 7. Raised by `set_key` when `k > 15` (47_host_operations.md R197). Safe. -/
  | hostKeyIndexOutOfRange (addr : Nat)
  deriving DecidableEq, Repr, Inhabited

/-- The code of a cause (60_exceptions.md R210). -/
def Fault.code : Fault → Nat
  | .unimplementedInstruction _ => 1
  | .stackOverflow _ => 2
  | .stackUnderflow _ => 3
  | .memoryOutOfBounds _ _ => 4
  | .keyIndexOutOfRange _ _ => 5
  | .programTooLarge _ => 6
  | .hostKeyIndexOutOfRange _ => 7

/-- The `opcode` field of the fault record, where it is valid (60_exceptions.md R210). -/
def Fault.opcode : Fault → Option Word
  | .unimplementedInstruction op | .stackOverflow op | .stackUnderflow op | .keyIndexOutOfRange op _ => some op
  | .memoryOutOfBounds op _ => op
  | .programTooLarge _ | .hostKeyIndexOutOfRange _ => none

/-- The `addr` field of the fault record, where it is valid (60_exceptions.md R210). -/
def Fault.addr : Fault → Option Nat
  | .memoryOutOfBounds _ a | .keyIndexOutOfRange _ a | .programTooLarge a | .hostKeyIndexOutOfRange a => some a
  | .unimplementedInstruction _ | .stackOverflow _ | .stackUnderflow _ => none

/-- The reasons an operation has no transition. -/
inductive Refusal where
  /-- An arm of `exec` whose instruction has no meaning yet; no arm of this model is one. Safe. -/
  | notModelled (mnemonic : String)
  /-- Raised by every operation but `construct` and `reset` before the first of these (47_host_operations.md R186,
  10_state.md R38). Safe. -/
  | notInitialised
  /-- Raised by `load_program`, `set_key`, `step`, `tick_timers` and `ack_frame` in mode `FAULTED`
  (47_host_operations.md R186). Safe. -/
  | machineFaulted
  /-- Raised by `load_program` in any state that differs from the reset state in more than `KEY`: the spec asks a
  model to refuse it (47_host_operations.md R198, 90_conflicts.md C1, log entry 13). Safe. -/
  | loadOnUsedMachine
  deriving DecidableEq, Repr

/-- `MEM` (10_state.md R34): the cells that differ from the reset contents, with strictly rising addresses. -/
abbrev Memory := List Host.Cell

/-- The complete state of the core (10_state.md R20), whether it has been reset yet (47_host_operations.md R186), and
the model's own counter of free values. -/
structure State where
  /-- `V[0..15]`, 16 registers of 8 bits; `V[15]` is `VF` (10_state.md R21, R23). -/
  v : Vector Byte 16
  /-- `I`, the index register (10_state.md R26). -/
  i : Word
  /-- `PC` (10_state.md R24). -/
  pc : Word
  /-- `SP`, the number of occupied stack slots, 0 to 16 (10_state.md R28). -/
  sp : Fin 17
  /-- `STACK[0..15]`, return addresses (10_state.md R27). -/
  stack : Vector Word 16
  /-- `MEM[0..4095]` (10_state.md R34). -/
  mem : Memory
  /-- `FB[0..2047]` (10_state.md R35). -/
  fb : Frame
  /-- `KEY[0..15]` (10_state.md R36). -/
  key : BitVec 16
  /-- `DT`, the delay timer (10_state.md R29). -/
  dt : Byte
  /-- `ST`, the sound timer (10_state.md R30). -/
  st : Byte
  /-- `FBC`, the framebuffer-changed bit (10_state.md R31). -/
  fbc : Bool
  /-- `FLT`, the fault record (10_state.md R32). -/
  flt : Option Fault
  /-- Whether the first `construct` or `reset` has happened: the mode is `UNINIT` before it (47_host_operations.md R186). -/
  initialised : Bool
  /-- The MODEL's own field: the index of the next free value (log entry 1). -/
  freeCount : Nat
  deriving DecidableEq, Repr, Inhabited

/-- The state `reset()` and `construct()` leave (70_reset_and_hazards.md R240). The empty list is the memory that holds
the font copy at 0x000..0x04F and 0x00 elsewhere, which is what an unlisted address reads as.
`freeCount := 0` is a DESIGN CHOICE (log entry 1). -/
def State.reset : State where
  v := Vector.replicate 16 0
  i := 0
  pc := 0x0200
  sp := 0
  stack := Vector.replicate 16 0
  mem := []
  fb := Vector.replicate 32 0
  key := 0
  dt := 0
  st := 0
  fbc := false
  flt := none
  initialised := true
  freeCount := 0

end Sys2Proof.Machine
end

