-- ==== Sys2Proof/Machine/Ops.lean ====
section
/-! DEFINITION. The named operations over registers, memory, stack and mode that the meanings are written with, taking
a fault, and the fetch. -/

namespace Sys2Proof.Machine

/-- What an operation answers: a value or next state, a fault, or a refusal (00_scope.md R13). -/
abbrev Result (α : Type) := Host.Outcome α Fault Refusal

/-- Go on with what `r` answers; a fault or a refusal ends the operation (60_exceptions.md R214, R215). -/
def andThen {α β : Type} (r : Result α) (f : α → Result β) : Result β :=
  match r with
  | .next a => f a
  | .fault e => .fault e
  | .refused e => .refused e

/-! ### Modes and faults -/

/-- The modes of the executor (47_host_operations.md R186). -/
inductive Mode where
  | uninit
  | run
  | faulted
  deriving DecidableEq, Repr

/-- The mode a state is in (47_host_operations.md R186, 10_state.md R32). -/
def State.mode (s : State) : Mode :=
  if s.initialised then (if s.flt.isNone then .run else .faulted) else .uninit

/-- An operation that is admitted in mode `RUN` only (47_host_operations.md R186). -/
def whenRunning {α : Type} (s : State) (r : Result α) : Result α :=
  match s.mode with
  | .run => r
  | .uninit => .refused .notInitialised
  | .faulted => .refused .machineFaulted

/-- `raise F(info)`: the current operation ends at once (60_exceptions.md R214). The outcome carries the fault record
and no successor state (R216). -/
def raise {α : Type} (f : Fault) : Result α := .fault f

end Sys2Proof.Machine

/-- Any state at all: what the elements other than `FLT` hold after a fault. It has no body, so nothing can be
proved of it (60_exceptions.md R216, log entry 2). -/
opaque Sys2Proof.Config.afterFault (f : Sys2Proof.Machine.Fault) (s : Sys2Proof.Machine.State) :
    Sys2Proof.Machine.State

namespace Sys2Proof.Machine

/-- The state a fault leaves: `FLT` is set, the mode is `FAULTED`, every other element is unspecified
(60_exceptions.md R214, R216). There is no vector, no saved PC and no return other than `reset` (R217).
The counter of free values moves on, so that a later fault finds other unspecified values. -/
def latch (f : Fault) (s : State) : State :=
  { Config.afterFault f s with flt := some f, initialised := true, freeCount := s.freeCount + 1 }

/-! ### Registers -/

/-- `V[x]` (00_scope.md R8). -/
def State.readReg (s : State) (x : Reg) : Byte := s.v[x.val]

/-- `V[x] <- b`; no register is hardwired (10_state.md R21). -/
def State.writeReg (s : State) (x : Reg) (b : Byte) : State := { s with v := s.v.set x.val b }

/-- The register VF, general register and flag (10_state.md R23). -/
def vf : Reg := 15

/-- `I <- w`. -/
def State.setI (s : State) (w : Word) : State := { s with i := w }

/-- `PC <- w`. -/
def State.setPc (s : State) (w : Word) : State := { s with pc := w }

/-- `DT <- b`. -/
def State.setDt (s : State) (b : Byte) : State := { s with dt := b }

/-- `ST <- b`. -/
def State.setSt (s : State) (b : Byte) : State := { s with st := b }

/-- Replace the whole framebuffer. -/
def State.setFb (s : State) (f : Frame) : State := { s with fb := f }

/-- `FBC <- b`. -/
def State.setFbc (s : State) (b : Bool) : State := { s with fbc := b }

/-- Replace the keypad state. -/
def State.setKeys (s : State) (k : BitVec 16) : State := { s with key := k }

/-- Replace the memory. -/
def State.setMem (s : State) (m : Memory) : State := { s with mem := m }

/-- Replace the registers. -/
def State.setRegs (s : State) (v : Vector Byte 16) : State := { s with v := v }

/-- Replace the stack and its pointer. -/
def State.setStack (s : State) (stack : Vector Word 16) (sp : Fin 17) : State := { s with stack := stack, sp := sp }

/-- The next free value is used up. -/
def State.takeFree (s : State) : State := { s with freeCount := s.freeCount + 1 }

/-- PC advances by the length of an instruction, 2 (30_encoding.md R80). -/
def State.advance (s : State) : State := s.setPc (s.pc + 2)

/-! ### Memory -/

/-- What an address that the memory does not list holds: the reset contents (20_memory.md R51, 10_state.md R33). -/
def unlisted (a : Nat) : Byte := Config.font.getD a 0

/-- The byte at an address. -/
def Memory.read : Memory → Nat → Byte
  | [], a => unlisted a
  | (k, b) :: m, a => if k = a then b else Memory.read m a

/-- Put a cell before the first cell with a higher address. -/
def Memory.insert (a : Nat) (b : Byte) : Memory → Memory
  | [] => [(a, b)]
  | c :: m => if a < c.1 then (a, b) :: c :: m else c :: Memory.insert a b m

/-- Write a byte; a byte equal to what an unlisted address holds is not listed. -/
def Memory.write (m : Memory) (a : Nat) (b : Byte) : Memory :=
  if b = unlisted a then m.filter (fun c => c.1 != a) else Memory.insert a b (m.filter (fun c => c.1 != a))

/-- The canonical form: addresses inside the address space and strictly rising, no cell equal to what an unlisted
address holds. -/
def Memory.wf : Memory → Bool
  | [] => true
  | (a, b) :: m => decide (a ≤ 0xFFF) && (b != unlisted a) && m.all (fun c => decide (a < c.1)) && Memory.wf m

/-- The byte of the state's memory at an address. -/
def State.readByte (s : State) (a : Nat) : Byte := s.mem.read a

/-- The state with a byte of its memory replaced. -/
def State.writeByte (s : State) (a : Nat) (b : Byte) : State := s.setMem (s.mem.write a b)

/-- `MemRead(a, 1)`: addresses above 0xFFF do not exist (20_memory.md R52). `op` is the opcode the fault records,
none for a fetch (60_exceptions.md R210). -/
def memRead (op : Option Word) (a : Nat) (s : State) : Result Byte :=
  if a ≤ 0xFFF then .next (s.readByte a) else raise (.memoryOutOfBounds op a)

/-- `MemWrite(a, 1, b)`: every address up to 0xFFF is writable (20_memory.md R53, R58). -/
def memWrite (op : Option Word) (a : Nat) (b : Byte) (s : State) : Result State :=
  if a ≤ 0xFFF then .next (s.writeByte a b) else raise (.memoryOutOfBounds op a)

/-- The `n` bytes from address `a` on, read in ascending order; the first address above 0xFFF faults
(20_memory.md R57, 60_exceptions.md R215). Addresses are exact sums (00_scope.md R8). -/
def memReadMany (op : Option Word) (a : Nat) : Nat → State → Result (List Byte)
  | 0, _ => .next []
  | n + 1, s =>
    andThen (memRead op a s) fun b => andThen (memReadMany op (a + 1) n s) fun bs => .next (b :: bs)

/-- Store bytes from address `a` on, in ascending order; the first address above 0xFFF faults. -/
def memWriteMany (op : Option Word) (a : Nat) : List Byte → State → Result State
  | [], s => .next s
  | b :: bs, s => andThen (memWrite op a b s) fun s' => memWriteMany op (a + 1) bs s'

/-! ### Stack -/

/-- `STACK[SP] <- PC; SP <- SP + 1`, or `StackOverflow` when all 16 slots are occupied (10_state.md R28,
40_flow_control.md R113). -/
def pushPc (op : Word) (s : State) : Result State :=
  if h : s.sp.val < 16 then .next (s.setStack (s.stack.set s.sp.val s.pc) ⟨s.sp.val + 1, by omega⟩)
  else raise (.stackOverflow op)

/-- `SP <- SP - 1; PC <- STACK[SP]`, or `StackUnderflow` when the stack is empty; the slot keeps its value
(10_state.md R27, R28, 40_flow_control.md R111). -/
def popPc (op : Word) (s : State) : Result State :=
  if h : s.sp.val = 0 then raise (.stackUnderflow op)
  else .next ((s.setStack s.stack ⟨s.sp.val - 1, by omega⟩).setPc s.stack[s.sp.val - 1])

/-! ### Fetch -/

/-- `op <- MemRead(PC, 2)`: big-endian, at any PC, even or odd; it faults before PC is advanced, at PC when
`PC > 0xFFF` and at 0x1000 when `PC = 0xFFF` (20_memory.md R54 to R56). -/
def fetch (s : State) : Result Word :=
  andThen (memRead none s.pc.toNat s) fun high =>
    andThen (memRead none (s.pc.toNat + 1) s) fun low => .next (wordOfBytes high low)

/-- Fetch and decode: a word that matches no row raises `UnimplementedInstruction` (30_encoding.md R80, R94). -/
def fetchInstr (s : State) : Result Instr :=
  andThen (fetch s) fun op =>
    match decodeWord op with
    | some i => .next i
    | none => raise (.unimplementedInstruction op)

/-- The state with the bytes placed in its memory from address `a` on, those beyond 0xFFF left out. -/
def placeBytes (a : Nat) : List Byte → State → State
  | [], s => s
  | b :: bs, s => placeBytes (a + 1) bs (if a ≤ 0xFFF then s.writeByte a b else s)

end Sys2Proof.Machine
end

