-- ==== Sys2Proof/Machine/Operands.lean ====
section
/-! DEFINITION. The operand forms: literals, shift operands, glyph addresses, decimal digits, register ranges, keys. -/

namespace Sys2Proof.Machine

/-- `zext_16(nnn)` (30_encoding.md R84). -/
def target (nnn : BitVec 12) : Word := nnn.zeroExtend 16

/-- `zext_16(V[x])` (00_scope.md R8). -/
def zext16 (b : Byte) : Word := b.zeroExtend 16

/-- The operand of a shift: `V[y]` when `SHIFT_USES_VY` is true, else `V[x]` (42_register_alu.md R144). -/
def shiftOperand (usesVy : Bool) (x y : Reg) (s : State) : Byte :=
  if usesVy then s.readReg y else s.readReg x

/-- `(a >> 1)`, a zero enters at bit 7 (42_register_alu.md R139). -/
def shiftRightOne (a : Byte) : Byte := BitVec.ofNat 8 (a.toNat / 2)

/-- `(a << 1) mod 256` (42_register_alu.md R140). -/
def shiftLeftOne (a : Byte) : Byte := BitVec.ofNat 8 (a.toNat * 2)

/-- `zext_16(V[x]) * 5`, the address of a font glyph, exact (43_index_memory.md R152). -/
def glyphAddress (b : Byte) : Word := BitVec.ofNat 16 (b.toNat * 5)

/-- The hundreds, tens and ones of a byte, most significant first (43_index_memory.md R153). -/
def decimalDigits (b : Byte) : List Byte :=
  [BitVec.ofNat 8 (b.toNat / 100), BitVec.ofNat 8 (b.toNat / 10 % 10), BitVec.ofNat 8 (b.toNat % 10)]

/-- `V[0], .., V[x]`, in that order (43_index_memory.md R154). -/
def regsUpTo (x : Reg) (s : State) : List Byte := s.v.toList.take (x.val + 1)

/-- `V[k] <- bytes[k]` for every `k` that the bytes reach; the registers above keep their values
(43_index_memory.md R155). -/
def loadRegsFrom (bytes : List Byte) (s : State) : State :=
  s.setRegs (Vector.ofFn fun k : Fin 16 => bytes.getD k.val (s.readReg k))

/-- `KEY[k]` for `k` up to 15 (10_state.md R36). -/
def State.keyHeld (s : State) (k : Nat) : Bool := s.key.getLsbD k

/-- The lowest held key at or above `k`, of the `n` keys from `k` on. -/
def lowestKeyFrom (s : State) (k : Nat) : Nat → Option Nat
  | 0 => none
  | n + 1 => if s.keyHeld k then some k else lowestKeyFrom s (k + 1) n

/-- The lowest held key: keys 0x0 to 0xF are scanned in ascending order (44_timers_keys.md R163). -/
def lowestKey (s : State) : Option Nat := lowestKeyFrom s 0 16

end Sys2Proof.Machine
end

