-- ==== Sys2Proof/Machine/Flags.lean ====
section
/-! DEFINITION. The six computations of VF (10_state.md R23) and the order of the flag write and the result write
(42_register_alu.md R143). -/

namespace Sys2Proof.Machine

/-- A flag as a register value: 1 when the condition holds, else 0 (10_state.md R23). -/
def flagByte (b : Bool) : Byte := if b then 1 else 0

/-- VF of `8xy4`: 1 if the unsigned sum exceeds 255 (42_register_alu.md R136). -/
def carryFlag (a b : Byte) : Byte := flagByte (decide (a.toNat + b.toNat > 255))

/-- VF of `8xy5` and `8xy7`: 1 if the minuend is at least the subtrahend, no borrow (42_register_alu.md R137, R138). -/
def noBorrowFlag (minuend subtrahend : Byte) : Byte := flagByte (decide (minuend.toNat ≥ subtrahend.toNat))

/-- VF of `8xy6`: the bit shifted out on the right (42_register_alu.md R139). -/
def shiftedOutRight (a : Byte) : Byte := flagByte (a.getLsbD 0)

/-- VF of `8xyE`: the bit shifted out on the left (42_register_alu.md R140). -/
def shiftedOutLeft (a : Byte) : Byte := flagByte (a.getLsbD 7)

/-- VF of `Dxyn`: 1 if any toggle turned an on pixel off (45_draw.md R170). -/
def collisionFlag (collided : Bool) : Byte := flagByte collided

/-- VF is written first, then `V[x]`, so that with `x = F` the result remains (42_register_alu.md R143). -/
def writeFlagged (x : Reg) (flag result : Byte) (s : State) : State := (s.writeReg vf flag).writeReg x result

end Sys2Proof.Machine
end

