-- ==== Sys2Proof/Machine/Draw.lean ====
section
/-! DEFINITION. The draw instruction (45_draw.md). -/

namespace Sys2Proof.Machine

/-- The index of pixel `(px, py)` (10_state.md R35). -/
def pixelIndex (px py : Nat) : Nat := py * 64 + px

/-- `FB[k]`: whether pixel `k` is on (10_state.md R35). -/
def pixelOn (f : Frame) (k : Nat) : Bool := (f.toList.getD (k / 64) 0).getLsbD (k % 64)

/-- The frame with pixel `k` inverted. -/
def flipPixel (f : Frame) (k : Nat) : Frame :=
  if h : k / 64 < 32 then f.set (k / 64) (f[k / 64] ^^^ BitVec.twoPow 64 (k % 64)) else f

/-- `FB[k] <- FB[k] xor 1`, noting whether that turned an on pixel off (45_draw.md R170). The pair holds the frame and
whether any toggle so far did. -/
def togglePixel (k : Nat) (p : Frame × Bool) : Frame × Bool :=
  (flipPixel p.1 k, p.2 || pixelOn p.1 k)

/-- The bits of one sprite row, from column offset `bit` on, most significant bit first; columns wrap modulo 64
(45_draw.md R170). -/
def drawBits (vx py : Nat) (b : Byte) (bit : Nat) : Nat → Frame × Bool → Frame × Bool
  | 0, p => p
  | n + 1, p =>
    drawBits vx py b (bit + 1) n (if b.getLsbD (7 - bit) then togglePixel (pixelIndex ((vx + bit) % 64) py) p else p)

/-- The rows of a sprite from row `row` on, top row first; rows wrap modulo 32 (45_draw.md R170). -/
def drawRows (vx vy : Nat) : Nat → List Byte → Frame × Bool → Frame × Bool
  | _, [], p => p
  | row, b :: bs, p => drawRows vx vy (row + 1) bs (drawBits vx ((vy + row) % 32) b 0 8 p)

/-- A whole sprite: the new frame and whether there was a collision. -/
def drawSprite (vx vy : Nat) (sprite : List Byte) (f : Frame) : Frame × Bool := drawRows vx vy 0 sprite (f, false)

/-- The effect of a draw once its sprite bytes are read: the coordinates are read first, VF is written last and on every
execution, FBC is set (45_draw.md R170, R172). -/
def showSprite (x y : Reg) (sprite : List Byte) (s : State) : State :=
  let drawn := drawSprite (s.readReg x).toNat (s.readReg y).toNat sprite s.fb
  ((s.setFb drawn.1).writeReg vf (collisionFlag drawn.2)).setFbc true

/-- `Dxyn` DRW Vx, Vy, n (45_draw.md R170). A fault leaves no state, so reading the rows before the first toggle is the
pseudocode's order as far as it can be seen (60_exceptions.md R216). -/
def execDrw (x y : Reg) (n : BitVec 4) (s : State) : Result State :=
  andThen (memReadMany (some (encode (.drw x y n))) s.i.toNat n.toNat s) fun sprite => .next (showSprite x y sprite s)

end Sys2Proof.Machine
end

