-- ==== Sys2Proof/Machine/FlowControl.lean ====
section
/-! DEFINITION. Flow control (40_flow_control.md). No jump tests its target (R115). -/

namespace Sys2Proof.Machine

/-- Zero the framebuffer; the parameter `CLS_MARKS_CHANGED` says whether `FBC` is set (40_flow_control.md R110). -/
def clearScreen (marksChanged : Bool) (s : State) : State :=
  (s.setFb (Vector.replicate 32 0)).setFbc (marksChanged || s.fbc)

/-- `00E0` CLS (40_flow_control.md R110). -/
def execCls (s : State) : Result State := .next (clearScreen Config.clsMarksChanged s)

/-- `00EE` RET: pop the stack into PC (40_flow_control.md R111). -/
def execRet (s : State) : Result State := popPc (encode .ret) s

/-- `1nnn` JP nnn (40_flow_control.md R112). -/
def execJp (nnn : BitVec 12) (s : State) : Result State := .next (s.setPc (target nnn))

/-- `2nnn` CALL nnn: push the advanced PC, then jump (40_flow_control.md R113). -/
def execCall (nnn : BitVec 12) (s : State) : Result State :=
  andThen (pushPc (encode (.call nnn)) s) fun s' => .next (s'.setPc (target nnn))

/-- `Bnnn` JP V0, nnn: the exact sum, V0 whatever the digits of `nnn` (40_flow_control.md R114). -/
def execJpV0 (nnn : BitVec 12) (s : State) : Result State :=
  .next (s.setPc (zext16 (s.readReg 0) + target nnn))

end Sys2Proof.Machine
end

