-- ==== Sys2Proof/Machine/IndexMemory.lean ====
section
/-! DEFINITION. The index register and memory (43_index_memory.md). Addresses `I + k` are exact sums; `I` is never changed
by `Fx33`, `Fx55`, `Fx65` (R156). -/

namespace Sys2Proof.Machine

/-- `Annn` LD I, nnn (43_index_memory.md R150). -/
def execLdI (nnn : BitVec 12) (s : State) : Result State := .next (s.setI (target nnn))

/-- `Fx1E` ADD I, Vx: wraps at 16 bits and does not touch VF (43_index_memory.md R151). -/
def execAddI (x : Reg) (s : State) : Result State := .next (s.setI (s.i + zext16 (s.readReg x)))

/-- `Fx29` LD F, Vx: the whole byte is multiplied, no memory is read (43_index_memory.md R152). -/
def execLdGlyph (x : Reg) (s : State) : Result State := .next (s.setI (glyphAddress (s.readReg x)))

/-- `Fx33` LD B, Vx: three digits at I, I+1, I+2 (43_index_memory.md R153). -/
def execLdBcd (x : Reg) (s : State) : Result State :=
  memWriteMany (some (encode (.ldBcd x))) s.i.toNat (decimalDigits (s.readReg x)) s

/-- `Fx55` LD [I], Vx: V0 to Vx at I onwards (43_index_memory.md R154). -/
def execStoreRegs (x : Reg) (s : State) : Result State :=
  memWriteMany (some (encode (.storeRegs x))) s.i.toNat (regsUpTo x s) s

/-- `Fx65` LD Vx, [I]: V0 to Vx from I onwards (43_index_memory.md R155). A fault leaves no state, so reading all bytes
before writing the registers is the pseudocode's order as far as it can be seen (60_exceptions.md R216). -/
def execLoadRegs (x : Reg) (s : State) : Result State :=
  andThen (memReadMany (some (encode (.loadRegs x))) s.i.toNat (x.val + 1) s) fun bytes => .next (loadRegsFrom bytes s)

end Sys2Proof.Machine
end

