-- ==== Sys2Proof/Machine/Nop.lean ====
section
/-! DEFINITION. The no-op word (46_nop.md). In every meaning `s.pc` has already been advanced by the fetch
(00_scope.md R9). -/

namespace Sys2Proof.Machine

/-- `0000` NOP: nothing beyond what the fetch already applied (46_nop.md R180). -/
def execNop (s : State) : Result State := .next s

end Sys2Proof.Machine
end

