-- ==== Sys2Proof/Machine/RegisterAlu.lean ====
section
/-! DEFINITION. Register load, arithmetic, logic, shift and random (42_register_alu.md). Both operands are read before
either write (R143). -/

namespace Sys2Proof.Machine

/-- `6xkk` LD Vx, kk (42_register_alu.md R130). -/
def execLdImm (x : Reg) (kk : Byte) (s : State) : Result State := .next (s.writeReg x kk)

/-- `7xkk` ADD Vx, kk: wraps modulo 256 and does not touch VF (42_register_alu.md R131). -/
def execAddImm (x : Reg) (kk : Byte) (s : State) : Result State := .next (s.writeReg x (s.readReg x + kk))

/-- `8xy0` LD Vx, Vy (42_register_alu.md R132). -/
def execLdReg (x y : Reg) (s : State) : Result State := .next (s.writeReg x (s.readReg y))

/-- `8xy1` OR Vx, Vy: VF is left as it is (42_register_alu.md R133). -/
def execOrReg (x y : Reg) (s : State) : Result State := .next (s.writeReg x (s.readReg x ||| s.readReg y))

/-- `8xy2` AND Vx, Vy: VF is left as it is (42_register_alu.md R134). -/
def execAndReg (x y : Reg) (s : State) : Result State := .next (s.writeReg x (s.readReg x &&& s.readReg y))

/-- `8xy3` XOR Vx, Vy: VF is left as it is (42_register_alu.md R135). -/
def execXorReg (x y : Reg) (s : State) : Result State := .next (s.writeReg x (s.readReg x ^^^ s.readReg y))

/-- `8xy4` ADD Vx, Vy with carry flag (42_register_alu.md R136). -/
def execAddReg (x y : Reg) (s : State) : Result State :=
  .next (writeFlagged x (carryFlag (s.readReg x) (s.readReg y)) (s.readReg x + s.readReg y) s)

/-- `8xy5` SUB Vx, Vy with not-borrow flag (42_register_alu.md R137). -/
def execSubReg (x y : Reg) (s : State) : Result State :=
  .next (writeFlagged x (noBorrowFlag (s.readReg x) (s.readReg y)) (s.readReg x - s.readReg y) s)

/-- `8xy7` SUBN Vx, Vy: reverse subtract with not-borrow flag, into Vx (42_register_alu.md R138). -/
def execSubnReg (x y : Reg) (s : State) : Result State :=
  .next (writeFlagged x (noBorrowFlag (s.readReg y) (s.readReg x)) (s.readReg y - s.readReg x) s)

/-- Shift right by one under the parameter `SHIFT_USES_VY` (42_register_alu.md R139, R144). -/
def shiftRight (usesVy : Bool) (x y : Reg) (s : State) : State :=
  writeFlagged x (shiftedOutRight (shiftOperand usesVy x y s)) (shiftRightOne (shiftOperand usesVy x y s)) s

/-- Shift left by one under the parameter `SHIFT_USES_VY` (42_register_alu.md R140, R144). -/
def shiftLeft (usesVy : Bool) (x y : Reg) (s : State) : State :=
  writeFlagged x (shiftedOutLeft (shiftOperand usesVy x y s)) (shiftLeftOne (shiftOperand usesVy x y s)) s

/-- `8xy6` SHR Vx (42_register_alu.md R139). -/
def execShr (x y : Reg) (s : State) : Result State := .next (shiftRight Config.shiftUsesVy x y s)

/-- `8xyE` SHL Vx (42_register_alu.md R140). -/
def execShl (x y : Reg) (s : State) : Result State := .next (shiftLeft Config.shiftUsesVy x y s)

/-- `V[x] <- rnd and kk` for the random byte `rnd` of this step, which is then used up (42_register_alu.md R141). -/
def randomMasked (rnd : Byte) (x : Reg) (kk : Byte) (s : State) : Result State :=
  .next ((s.writeReg x (rnd &&& kk)).takeFree)

/-- `Cxkk` RND Vx, kk: the byte is a free value, fresh at every execution (42_register_alu.md R141, log entry 1). -/
def execRnd (x : Reg) (kk : Byte) (s : State) : Result State := randomMasked (Config.rnd s.freeCount) x kk s

end Sys2Proof.Machine
end

