-- ==== Sys2Proof/Machine/Skip.lean ====
section
/-! DEFINITION. Conditional skips (41_conditional_skip.md). -/

namespace Sys2Proof.Machine

/-- Advance PC by an extra 2 when the condition holds, without looking at what is skipped (41_conditional_skip.md R126). -/
def skipIf (cond : Bool) (s : State) : State := if cond then s.setPc (s.pc + 2) else s

/-- A skip on the key whose index is `V[x]`: an index above 15 faults and is not masked
(41_conditional_skip.md R124, R125, 92_eei_decisions.md D13). -/
def skipOnKey (op : Word) (x : Reg) (wanted : Bool) (s : State) : Result State :=
  if (s.readReg x).toNat > 15 then raise (.keyIndexOutOfRange op (s.readReg x).toNat)
  else .next (skipIf (s.keyHeld (s.readReg x).toNat == wanted) s)

/-- `3xkk` SE Vx, kk (41_conditional_skip.md R120). -/
def execSeImm (x : Reg) (kk : Byte) (s : State) : Result State := .next (skipIf (s.readReg x == kk) s)

/-- `4xkk` SNE Vx, kk (41_conditional_skip.md R121). -/
def execSneImm (x : Reg) (kk : Byte) (s : State) : Result State := .next (skipIf (s.readReg x != kk) s)

/-- `5xy0` SE Vx, Vy (41_conditional_skip.md R122). -/
def execSeReg (x y : Reg) (s : State) : Result State := .next (skipIf (s.readReg x == s.readReg y) s)

/-- `9xy0` SNE Vx, Vy (41_conditional_skip.md R123). -/
def execSneReg (x y : Reg) (s : State) : Result State := .next (skipIf (s.readReg x != s.readReg y) s)

/-- `Ex9E` SKP Vx (41_conditional_skip.md R124). -/
def execSkp (x : Reg) (s : State) : Result State := skipOnKey (encode (.skp x)) x true s

/-- `ExA1` SKNP Vx (41_conditional_skip.md R125). -/
def execSknp (x : Reg) (s : State) : Result State := skipOnKey (encode (.sknp x)) x false s

end Sys2Proof.Machine
end

