-- ==== Sys2Proof/Machine/TimersKeys.lean ====
section
/-! DEFINITION. Timer instructions and the blocking key read (44_timers_keys.md). -/

namespace Sys2Proof.Machine

/-- `Fx07` LD Vx, DT (44_timers_keys.md R160). -/
def execLdVxDt (x : Reg) (s : State) : Result State := .next (s.writeReg x s.dt)

/-- `Fx15` LD DT, Vx (44_timers_keys.md R161). -/
def execLdDtVx (x : Reg) (s : State) : Result State := .next (s.setDt (s.readReg x))

/-- `Fx18` LD ST, Vx (44_timers_keys.md R162). -/
def execLdStVx (x : Reg) (s : State) : Result State := .next (s.setSt (s.readReg x))

/-- `Fx0A` LD Vx, K: the lowest held key, or PC goes back by 2 so that the same instruction is fetched again
(44_timers_keys.md R163). -/
def execLdVxKey (x : Reg) (s : State) : Result State :=
  match lowestKey s with
  | some k => .next (s.writeReg x (BitVec.ofNat 8 k))
  | none => .next (s.setPc (s.pc - 2))

end Sys2Proof.Machine
end

