-- ==== Sys2Proof/Machine/Step.lean ====
section
/-! DEFINITION. One step (47_host_operations.md R187). -/

namespace Sys2Proof.Machine

/-- One fetch/decode/execute cycle, admitted in mode `RUN` only (47_host_operations.md R186, R187). PC is advanced
before the instruction executes (30_encoding.md R80). The random byte of the step is the next free value
(log entry 1). -/
def step (s : State) : Host.Outcome State Fault Refusal :=
  whenRunning s (andThen (fetchInstr s) fun i => exec i s.advance)

/-- The state with the instruction whose bits, numbered as spec/opcode_table.json numbers them, are `w`, stored where the
next fetch reads: its high byte at PC, its low byte at PC + 1 (20_memory.md R54). Only memory changes. -/
def State.withFetchWord (s : State) (nbits w : Nat) : State :=
  placeBytes s.pc.toNat (wordBytes (tableWord nbits w)) s

end Sys2Proof.Machine
end

