-- ==== Sys2Proof/Machine/HostOps.lean ====
section
/-! DEFINITION. The host boundary (47_host_operations.md): what each of the nine operations does, in which mode it is
admitted (R186), and the state of the executor after it (R188). -/

/-- What `framebuffer()` returns in mode `FAULTED`: unspecified, so it has no body (47_host_operations.md R186,
log entry 3). -/
opaque Sys2Proof.Config.faultedFrame (s : Sys2Proof.Machine.State) : Sys2Proof.Frame

/-- What `sound_active()` returns in mode `FAULTED`: unspecified, so it has no body (47_host_operations.md R186,
log entry 3). -/
opaque Sys2Proof.Config.faultedTone (s : Sys2Proof.Machine.State) : Bool

namespace Sys2Proof.Machine

/-- `reset()`: the reset state, whatever the state before (70_reset_and_hazards.md R240). The counter of free values is
no element of the core and goes on, so that the random bytes are not replayed (log entry 1). -/
def resetOp (s : State) : State := { State.reset with freeCount := s.freeCount }

/-- `construct()` gives the same state as `reset()` (47_host_operations.md R202). -/
def constructOp (s : State) : State := resetOp s

/-- Whether the state is the one a reset leaves, apart from `KEY` (47_host_operations.md R198). -/
def untouched (s : State) : Bool := decide ({ s with key := 0, freeCount := 0 } = State.reset)

/-- The pseudocode of `load_program`: copy the image to 0x200 onwards and nothing else; more than 3584 bytes fault
(47_host_operations.md R198). -/
def loadImage (bytes : List Byte) (s : State) : Result State :=
  if bytes.length > 3584 then raise (.programTooLarge bytes.length) else .next (placeBytes 0x200 bytes s)

/-- `load_program(bytes)`: refused on a machine that is not as a reset leaves it, as the spec asks of a model
(47_host_operations.md R198, 90_conflicts.md C1, log entry 13). -/
def loadProgram (bytes : List Byte) (s : State) : Result State :=
  if untouched s then loadImage bytes s else .refused .loadOnUsedMachine

/-- The keypad state with one bit replaced. -/
def keysWith (keys : BitVec 16) (k : Nat) (held : Bool) : BitVec 16 :=
  if held then keys ||| BitVec.twoPow 16 k else keys &&& ~~~ BitVec.twoPow 16 k

/-- `set_key(k, held)` (47_host_operations.md R197). -/
def setKey (k : Nat) (held : Bool) (s : State) : Result State :=
  if k > 15 then raise (.hostKeyIndexOutOfRange k) else .next (s.setKeys (keysWith s.key k held))

/-- A timer counts down to zero and stays there (47_host_operations.md R195). -/
def countDown (b : Byte) : Byte := if b = 0 then 0 else b - 1

/-- `tick_timers()` (47_host_operations.md R195). -/
def tickTimers (s : State) : State := (s.setDt (countDown s.dt)).setSt (countDown s.st)

/-- `n` calls of `tick_timers()`. -/
def tickTimes : Nat → State → State
  | 0, s => s
  | n + 1, s => tickTimes n (tickTimers s)

/-- `ack_frame()` (47_host_operations.md R200). -/
def ackFrame (s : State) : State := s.setFbc false

/-- The tone level (47_host_operations.md R196). -/
def toneActive (s : State) : Bool := s.st != 0

/-- What `framebuffer()` returns: all 2048 pixel bits in mode `RUN`, unspecified bits in mode `FAULTED`, refused before the
first reset (47_host_operations.md R186, R201). -/
def framebuffer (s : State) : Except Refusal Frame :=
  match s.mode with
  | .run => .ok s.fb
  | .faulted => .ok (Config.faultedFrame s)
  | .uninit => .error .notInitialised

/-- What `sound_active()` returns (47_host_operations.md R186, R199). -/
def soundActive (s : State) : Except Refusal Bool :=
  match s.mode with
  | .run => .ok (toneActive s)
  | .faulted => .ok (Config.faultedTone s)
  | .uninit => .error .notInitialised

/-- The execute phase of `step(rnd)`: only `Cxkk` reads the random byte (47_host_operations.md R187). -/
def execWith (rnd : Byte) (i : Instr) (s : State) : Result State :=
  match i with
  | .rnd x kk => randomMasked rnd x kk s
  | j => exec j s

/-- `step(rnd)` with the random byte the host passes (47_host_operations.md R187). -/
def stepWith (rnd : Byte) (s : State) : Result State :=
  whenRunning s (andThen (fetchInstr s) fun i => execWith rnd i s.advance)

/-- Whether an operation is admitted in a mode (47_host_operations.md R186). -/
def admitted : HostOp → Mode → Bool
  | .construct, _ => true
  | .reset, _ => true
  | .loadProgram _, m => m == .run
  | .setKey _ _, m => m == .run
  | .step _, m => m == .run
  | .tickTimers, m => m == .run
  | .ackFrame, m => m == .run
  | .framebuffer, m => m != .uninit
  | .soundActive, m => m != .uninit

/-- Why an operation that is not admitted is refused. -/
def refusalIn : Mode → Refusal
  | .faulted => .machineFaulted
  | .run | .uninit => .notInitialised

/-- What an admitted operation does to the state (47_host_operations.md R185); the two observations change nothing. -/
def effect (op : HostOp) (s : State) : Result State :=
  match op with
  | .construct => .next (constructOp s)
  | .reset => .next (resetOp s)
  | .loadProgram bytes => loadProgram bytes s
  | .setKey k held => setKey k held s
  | .step rnd => stepWith rnd s
  | .tickTimers => .next (tickTimers s)
  | .framebuffer => .next s
  | .soundActive => .next s
  | .ackFrame => .next (ackFrame s)

/-- One host operation: one atomic transition, a fault, or a refusal (00_scope.md R11, R13). -/
def perform (op : HostOp) (s : State) : Result State :=
  if admitted op s.mode then effect op s else .refused (refusalIn s.mode)

/-- The state of the executor after an operation: a fault leaves the machine `FAULTED` with `FLT` set; a refused operation
has no transition (47_host_operations.md R186, R188, 60_exceptions.md R214). -/
def afterOp (op : HostOp) (s : State) : Option State :=
  match perform op s with
  | .next t => some t
  | .fault f => some (latch f s)
  | .refused _ => none

/-- A session: the operations one after another, none overlapping (70_reset_and_hazards.md R249); it has no outcome when
one of them is refused. -/
def session : List HostOp → State → Option State
  | [], s => some s
  | op :: ops, s => (afterOp op s).bind (session ops)

end Sys2Proof.Machine
end

