-- ==== Sys2Proof/WellFormed.lean ====
section
/-! DEFINITION. What is well formed: an instruction word that selects a row of the opcode map, a row of the map
that can be selected at all, and a host operation that keeps the host's duties. An `Instr` needs no check of its
own: its fields hold exactly the values the bits can hold and no field value is illegal (10_state.md R21). -/

namespace Sys2Proof

/-- A word is an instruction when it selects some row of the opcode map; every other word is unimplemented
(30_encoding.md R90, R94). -/
def legalWord (op : Word) : Bool := Config.opcodeMap.any fun r => r.selects op

/-- The row of the opcode map with this mnemonic. -/
def opcodeRow? (mnemonic : String) : Option OpcodeRow := Config.opcodeMap.find? fun r => r.mnemonic == mnemonic

/-- A row's pattern has no bit outside its mask, or no word could select the row. -/
def OpcodeRow.wf (r : OpcodeRow) : Bool := (r.pattern &&& r.mask) == r.pattern

/-- The host keeps its duties on the arguments: `k <= 15` and `L <= 3584` (47_host_operations.md R205).
An operation that does not is not refused but faults (R197, R198). -/
def HostOp.wf : HostOp → Bool
  | .loadProgram bytes => decide (bytes.length ≤ 3584)
  | .setKey k _ => decide (k ≤ 15)
  | .construct | .reset | .step _ | .tickTimers | .framebuffer | .soundActive | .ackFrame => true

end Sys2Proof
end

