-- ==== Sys2Proof/Safety.lean ====
section
/-! DEFINITION. The terms claims are stated in: what a transition leaves unchanged, and what is true of every state a
running machine can be in. -/

namespace Sys2Proof.Machine

/-- The elements of the state that are neither general registers nor memory (10_state.md R20). -/
inductive Elem where
  | i
  | pc
  | stack
  | fb
  | key
  | dt
  | st
  | fbc
  | free
  deriving DecidableEq, Repr

/-- What a transition may write: general registers, bytes of memory, other elements. -/
structure Footprint where
  regs : List Reg := []
  bytes : List Nat := []
  elems : List Elem := []
  deriving DecidableEq, Repr

/-- `t` differs from `s` at most in what the footprint names: "a register or state element the pseudocode does not write is
unchanged" (00_scope.md R10). `stack` stands for the slots and `SP`; the fault record and the mode are never written by
a transition that gives a next state. -/
def OnlyChanges (w : Footprint) (s t : State) : Prop :=
  (∀ x : Reg, x ∉ w.regs → t.readReg x = s.readReg x) ∧
  (∀ a : Nat, a ∉ w.bytes → t.readByte a = s.readByte a) ∧
  (Elem.i ∉ w.elems → t.i = s.i) ∧
  (Elem.pc ∉ w.elems → t.pc = s.pc) ∧
  (Elem.stack ∉ w.elems → t.stack = s.stack ∧ t.sp = s.sp) ∧
  (Elem.fb ∉ w.elems → t.fb = s.fb) ∧
  (Elem.key ∉ w.elems → t.key = s.key) ∧
  (Elem.dt ∉ w.elems → t.dt = s.dt) ∧
  (Elem.st ∉ w.elems → t.st = s.st) ∧
  (Elem.fbc ∉ w.elems → t.fbc = s.fbc) ∧
  (Elem.free ∉ w.elems → t.freeCount = s.freeCount) ∧
  t.flt = s.flt ∧ t.initialised = s.initialised

/-- What an instruction may write when it gives a next state, at the state it executes in: the registers of
10_state.md R22 and R23, the bytes of 20_memory.md R57 (the addresses are those the meanings store to), and the
elements of the instruction rules. -/
def writes (i : Instr) (s : State) : Footprint :=
  match i with
  | .nop => {}
  | .cls => { elems := [.fb, .fbc] }
  | .ret => { elems := [.stack, .pc] }
  | .jp _ => { elems := [.pc] }
  | .call _ => { elems := [.stack, .pc] }
  | .jpV0 _ => { elems := [.pc] }
  | .seImm _ _ | .sneImm _ _ | .seReg _ _ | .sneReg _ _ | .skp _ | .sknp _ => { elems := [.pc] }
  | .ldImm x _ | .addImm x _ | .ldReg x _ | .orReg x _ | .andReg x _ | .xorReg x _ => { regs := [x] }
  | .addReg x _ | .subReg x _ | .subnReg x _ | .shr x _ | .shl x _ => { regs := [x, vf] }
  | .rnd x _ => { regs := [x], elems := [.free] }
  | .ldI _ | .addI _ | .ldGlyph _ => { elems := [.i] }
  | .ldBcd _ => { bytes := [s.i.toNat, s.i.toNat + 1, s.i.toNat + 2] }
  | .storeRegs x => { bytes := (List.range (x.val + 1)).map fun k => s.i.toNat + k }
  | .loadRegs x => { regs := (List.finRange 16).filter fun k => k ≤ x }
  | .ldVxDt x => { regs := [x] }
  | .ldDtVx _ => { elems := [.dt] }
  | .ldStVx _ => { elems := [.st] }
  | .ldVxKey x => { regs := [x], elems := [.pc] }
  | .drw _ _ _ => { regs := [vf], elems := [.fb, .fbc] }

/-- Whether an instruction faults in its execute phase, and with which fault (60_exceptions.md R211). The first address
above 0xFFF that the ascending accesses meet is `max(I, 0x1000)`. -/
def faultOf (i : Instr) (s : State) : Option Fault :=
  match i with
  | .ret => if s.sp.val = 0 then some (.stackUnderflow (encode i)) else none
  | .call _ => if s.sp.val = 16 then some (.stackOverflow (encode i)) else none
  | .skp x | .sknp x =>
    if (s.readReg x).toNat > 15 then some (.keyIndexOutOfRange (encode i) (s.readReg x).toNat) else none
  | .drw _ _ n =>
    if n.toNat ≥ 1 ∧ s.i.toNat + n.toNat - 1 > 0xFFF then
      some (.memoryOutOfBounds (some (encode i)) (max s.i.toNat 0x1000)) else none
  | .ldBcd _ =>
    if s.i.toNat + 2 > 0xFFF then some (.memoryOutOfBounds (some (encode i)) (max s.i.toNat 0x1000)) else none
  | .storeRegs x | .loadRegs x =>
    if s.i.toNat + x.val > 0xFFF then some (.memoryOutOfBounds (some (encode i)) (max s.i.toNat 0x1000)) else none
  | .nop | .cls | .jp _ | .jpV0 _ | .seImm _ _ | .sneImm _ _ | .seReg _ _ | .sneReg _ _ | .ldImm _ _ | .addImm _ _
  | .ldReg _ _ | .orReg _ _ | .andReg _ _ | .xorReg _ _ | .addReg _ _ | .subReg _ _ | .shr _ _ | .subnReg _ _
  | .shl _ _ | .ldI _ | .rnd _ _ | .ldVxDt _ | .ldVxKey _ | .ldDtVx _ | .ldStVx _ | .addI _ | .ldGlyph _ => none

/-- PC after the execute phase of an instruction that gives a next state, as a number, at the state it executes in, whose
PC is `PC0 + 2` (10_state.md R25). -/
def pcAfter (i : Instr) (s : State) : Nat :=
  match i with
  | .jp nnn | .call nnn => nnn.toNat
  | .jpV0 nnn => (s.readReg 0).toNat + nnn.toNat
  | .ret => (s.stack.toList.getD (s.sp.val - 1) 0).toNat
  | .seImm x kk => if s.readReg x = kk then s.pc.toNat + 2 else s.pc.toNat
  | .sneImm x kk => if s.readReg x ≠ kk then s.pc.toNat + 2 else s.pc.toNat
  | .seReg x y => if s.readReg x = s.readReg y then s.pc.toNat + 2 else s.pc.toNat
  | .sneReg x y => if s.readReg x ≠ s.readReg y then s.pc.toNat + 2 else s.pc.toNat
  | .skp x => if s.keyHeld (s.readReg x).toNat = true then s.pc.toNat + 2 else s.pc.toNat
  | .sknp x => if s.keyHeld (s.readReg x).toNat = false then s.pc.toNat + 2 else s.pc.toNat
  | .ldVxKey _ => if ∃ k : Fin 16, s.keyHeld k.val = true then s.pc.toNat else s.pc.toNat - 2
  | .nop | .cls | .ldImm _ _ | .addImm _ _ | .ldReg _ _ | .orReg _ _ | .andReg _ _ | .xorReg _ _ | .addReg _ _
  | .subReg _ _ | .shr _ _ | .subnReg _ _ | .shl _ _ | .ldI _ | .rnd _ _ | .drw _ _ _ | .ldVxDt _ | .ldDtVx _
  | .ldStVx _ | .addI _ | .ldGlyph _ | .ldBcd _ | .storeRegs _ | .loadRegs _ => s.pc.toNat

/-- Whether a set bit of the `n`-row sprite at `I` falls on pixel `k` when it is drawn at the coordinates `V[x]`, `V[y]`:
column `(V[x] + bit) mod 64`, row `(V[y] + row) mod 32`, most significant bit first (45_draw.md R170). -/
def spriteCovers (x y : Reg) (n : Nat) (s : State) (k : Nat) : Bool :=
  (List.range n).any fun row => (List.range 8).any fun bit =>
    (s.readByte (s.i.toNat + row)).getLsbD (7 - bit) &&
      decide (pixelIndex (((s.readReg x).toNat + bit) % 64) (((s.readReg y).toNat + row) % 32) = k)

/-- The word at PC, high byte first (20_memory.md R54). -/
def wordAtPc (s : State) : Word := wordOfBytes (s.readByte s.pc.toNat) (s.readByte (s.pc.toNat + 1))

/-- The machine is in mode `RUN` and the two bytes at PC lie inside memory and decode to the instruction `i`. -/
def About (s : State) (i : Instr) : Prop := s.mode = .run ∧ s.pc.toNat ≤ 0xFFE ∧ decodeWord (wordAtPc s) = some i

/-- What holds of a running machine between operations: memory is in canonical form (the model's own layout, log entry 16,
DESIGN CHOICE), PC is at most 0x10FE (10_state.md R25; exact sums, 92_eei_decisions.md D10, log entry 9), every
stack slot holds at most 0x1000 (40_flow_control.md R111, R113). -/
def Inv (s : State) : Prop :=
  s.mem.wf = true ∧ s.pc.toNat ≤ 0x10FE ∧ ∀ k : Fin 16, (s.stack[k.val]).toNat ≤ 0x1000

/-- `Inv` whenever the mode is `RUN`; of a faulted or uninitialised machine nothing may be relied on
(60_exceptions.md R216, 10_state.md R38). -/
def RunInv (s : State) : Prop := s.mode = .run → Inv s

end Sys2Proof.Machine
end

