-- ==== Sys2Proof/Certificates/Slice0/Obligations.lean ====
section
/-! DEFINITION. The statements for the provers. In every statement about `exec`, the state is the one the instruction
executes in: PC is already the address of the following instruction (00_scope.md R9). -/

open Sys2Proof Sys2Proof.Machine

/-! ### Encoding and decoding -/

/-- A few words of 30_encoding.md R90, one or more of each format, decode to the instructions they stand for; most of the
patterns, and that near misses are no instructions, are the spec's decisions (92_eei_decisions.md D2, D3, log entry 8). -/
def Obligations.SampleWordsDecode : Prop :=
  decodeWord 0x0000 = some .nop ∧ decodeWord 0x00E0 = some .cls ∧ decodeWord 0x00EE = some .ret ∧
  decodeWord 0xA250 = some (.ldI 0x250) ∧ decodeWord 0x600A = some (.ldImm 0 0x0A) ∧
  decodeWord 0x6105 = some (.ldImm 1 0x05) ∧ decodeWord 0x8015 = some (.subReg 0 1) ∧
  decodeWord 0xD125 = some (.drw 1 2 5) ∧ decodeWord 0xE59E = some (.skp 5) ∧ decodeWord 0xFF65 = some (.loadRegs 15) ∧
  decodeWord 0x834E = some (.shl 3 4) ∧ decodeWord 0x0001 = none ∧ decodeWord 0x5341 = none ∧ decodeWord 0xF10B = none

/-- Every instruction is read back from its own word with every operand (30_encoding.md R80, R84, R90). -/
def Obligations.DecodeOfEncodeIsIdentity : Prop := ∀ i : Instr, decodeWord (encode i) = some i

/-- A word that decodes is the word of the instruction it decodes to: decoding drops no bit (30_encoding.md R84, R92). -/
def Obligations.EncodeOfDecodeIsIdentity : Prop := ∀ (w : Word) (i : Instr), decodeWord w = some i → encode i = w

/-- The rows of the opcode map that a word selects are exactly the one row of the instruction it decodes to, or none when it
does not decode: the decoder follows the map, and no two rows overlap (30_encoding.md R90, R92; 29 rows and the exact match are
the spec's decisions, 92_eei_decisions.md D2, D3, log entry 8). -/
def Obligations.DecoderFollowsOpcodeMap : Prop :=
  Config.opcodeMap.length = 35 ∧
  ∀ w : Word, (Config.opcodeMap.filter fun r => r.selects w).map (·.mnemonic) =
    ((decodeWord w).map Instr.mnemonic).toList

/-- How many of the 4096 words with each high nibble decode (30_encoding.md R93, a count the spec derives from R90). -/
def Obligations.LegalWordsPerFamily : Prop :=
  (List.range 16).map (fun d1 =>
      ((List.range 4096).filter fun n => (decodeWord (BitVec.ofNat 16 (d1 * 4096 + n))).isSome).length) =
    [3, 4096, 4096, 4096, 4096, 256, 4096, 4096, 2304, 256, 4096, 4096, 4096, 4096, 32, 144] ∧
  (List.range 16).map (fun d1 =>
      ((List.range 4096).filter fun n => (decodeWord (BitVec.ofNat 16 (d1 * 4096 + n))).isNone).length) =
    [4093, 0, 0, 0, 0, 3840, 0, 0, 1792, 3840, 0, 0, 0, 0, 4064, 3952] ∧
  ((List.range 65536).filter fun n => (decodeWord (BitVec.ofNat 16 n)).isSome).length = 43955 ∧
  ((List.range 65536).filter fun n => (decodeWord (BitVec.ofNat 16 n)).isNone).length = 21581

/-- The 35 patterns of 30_encoding.md R90 as numbers: the fixed bits and each field in its place. The patterns of 29 rows are
the spec's decision (92_eei_decisions.md D2, log entry 8). -/
def Obligations.EncodingPatterns : Prop :=
  ∀ (x y : Reg) (n : BitVec 4) (kk : Byte) (nnn : BitVec 12),
    (encode .nop).toNat = 0x0000 ∧
    (encode .cls).toNat = 0x00E0 ∧
    (encode .ret).toNat = 0x00EE ∧
    (encode (.jp nnn)).toNat = 0x1000 + nnn.toNat ∧
    (encode (.call nnn)).toNat = 0x2000 + nnn.toNat ∧
    (encode (.seImm x kk)).toNat = 0x3000 + x.val * 0x100 + kk.toNat ∧
    (encode (.sneImm x kk)).toNat = 0x4000 + x.val * 0x100 + kk.toNat ∧
    (encode (.seReg x y)).toNat = 0x5000 + x.val * 0x100 + y.val * 0x10 ∧
    (encode (.ldImm x kk)).toNat = 0x6000 + x.val * 0x100 + kk.toNat ∧
    (encode (.addImm x kk)).toNat = 0x7000 + x.val * 0x100 + kk.toNat ∧
    (encode (.ldReg x y)).toNat = 0x8000 + x.val * 0x100 + y.val * 0x10 ∧
    (encode (.orReg x y)).toNat = 0x8001 + x.val * 0x100 + y.val * 0x10 ∧
    (encode (.andReg x y)).toNat = 0x8002 + x.val * 0x100 + y.val * 0x10 ∧
    (encode (.xorReg x y)).toNat = 0x8003 + x.val * 0x100 + y.val * 0x10 ∧
    (encode (.addReg x y)).toNat = 0x8004 + x.val * 0x100 + y.val * 0x10 ∧
    (encode (.subReg x y)).toNat = 0x8005 + x.val * 0x100 + y.val * 0x10 ∧
    (encode (.shr x y)).toNat = 0x8006 + x.val * 0x100 + y.val * 0x10 ∧
    (encode (.subnReg x y)).toNat = 0x8007 + x.val * 0x100 + y.val * 0x10 ∧
    (encode (.shl x y)).toNat = 0x800E + x.val * 0x100 + y.val * 0x10 ∧
    (encode (.sneReg x y)).toNat = 0x9000 + x.val * 0x100 + y.val * 0x10 ∧
    (encode (.ldI nnn)).toNat = 0xA000 + nnn.toNat ∧
    (encode (.jpV0 nnn)).toNat = 0xB000 + nnn.toNat ∧
    (encode (.rnd x kk)).toNat = 0xC000 + x.val * 0x100 + kk.toNat ∧
    (encode (.drw x y n)).toNat = 0xD000 + x.val * 0x100 + y.val * 0x10 + n.toNat ∧
    (encode (.skp x)).toNat = 0xE09E + x.val * 0x100 ∧
    (encode (.sknp x)).toNat = 0xE0A1 + x.val * 0x100 ∧
    (encode (.ldVxDt x)).toNat = 0xF007 + x.val * 0x100 ∧
    (encode (.ldVxKey x)).toNat = 0xF00A + x.val * 0x100 ∧
    (encode (.ldDtVx x)).toNat = 0xF015 + x.val * 0x100 ∧
    (encode (.ldStVx x)).toNat = 0xF018 + x.val * 0x100 ∧
    (encode (.addI x)).toNat = 0xF01E + x.val * 0x100 ∧
    (encode (.ldGlyph x)).toNat = 0xF029 + x.val * 0x100 ∧
    (encode (.ldBcd x)).toNat = 0xF033 + x.val * 0x100 ∧
    (encode (.storeRegs x)).toNat = 0xF055 + x.val * 0x100 ∧
    (encode (.loadRegs x)).toNat = 0xF065 + x.val * 0x100

/-! ### The step -/

/-- 20_memory.md R54: the fetch is big-endian, and faults at the first of its two addresses above 0xFFF. -/
def Obligations.FetchReadsTwoBytesOrFaults : Prop :=
  ∀ s : State,
    (s.pc.toNat ≤ 0xFFE → ∃ w, fetch s = .next w ∧
      w.toNat = (s.readByte s.pc.toNat).toNat * 256 + (s.readByte (s.pc.toNat + 1)).toNat) ∧
    (s.pc.toNat = 0xFFF → fetch s = .fault (.memoryOutOfBounds none 0x1000)) ∧
    (s.pc.toNat > 0xFFF → fetch s = .fault (.memoryOutOfBounds none s.pc.toNat))

/-- A step whose bytes at PC decode to `i` is `exec i` on the state with PC advanced by 2 (30_encoding.md R80). -/
def Obligations.StepRunsDecodedInstruction : Prop :=
  ∀ (s : State) (i : Instr), About s i →
    step s = exec i s.advance ∧ s.advance.pc.toNat = s.pc.toNat + 2 ∧ OnlyChanges { elems := [.pc] } s s.advance

/-- 30_encoding.md R94: every word outside the opcode map is an unimplemented-instruction fault that carries the word, all
`0nnn` words but three among them. -/
def Obligations.UnimplementedWordFaults : Prop :=
  (∀ s : State, s.mode = .run → s.pc.toNat ≤ 0xFFE → legalWord (wordAtPc s) = false →
    step s = .fault (.unimplementedInstruction (wordAtPc s))) ∧
  (∀ w : Word, w.toNat < 0x1000 → w ≠ 0x0000 → w ≠ 0x00E0 → w ≠ 0x00EE → legalWord w = false)

/-- 60_exceptions.md R215: a step that faults does so at the fetch, else at decode, else by the one check of the decoded
instruction. The order and the fault's fields are the spec's decisions (92_eei_decisions.md D7, D8). -/
def Obligations.StepFaultsInOrder : Prop :=
  ∀ (s : State) (f : Fault), s.mode = .run → (step s = .fault f ↔
    if s.pc.toNat > 0xFFE then f = .memoryOutOfBounds none (max s.pc.toNat 0x1000)
    else match decodeWord (wordAtPc s) with
      | none => f = .unimplementedInstruction (wordAtPc s)
      | some i => faultOf i s.advance = some f)

/-- 60_exceptions.md R211: which instruction faults when and with what, every other instruction never; no instruction is
refused. The fault's fields, exact addresses and the key fault are the spec's decisions (92_eei_decisions.md D7, D10, D13). -/
def Obligations.InstructionFaultsExactlyWhen : Prop :=
  ∀ (i : Instr) (s : State),
    match faultOf i s with
    | some f => exec i s = .fault f
    | none => ∃ t, exec i s = .next t

/-- 10_state.md R25: PC after a step, and its bound for a machine that meets the invariant (exact sums,
92_eei_decisions.md D10). -/
def Obligations.ProgramCounterAfterStep : Prop :=
  ∀ (s t : State) (i : Instr), About s i → step s = .next t →
    t.pc.toNat = pcAfter i s.advance ∧ (Inv s → t.pc.toNat ≤ 0x10FE)

/-- An instruction that gives a next state changes nothing but what its rule writes: registers, every byte of memory and
every other element (10_state.md R22, 20_memory.md R57, 00_scope.md R10). -/
def Obligations.InstructionFrame : Prop :=
  ∀ (i : Instr) (s t : State), exec i s = .next t → OnlyChanges (writes i s) s t

/-- A step never changes the keys, and changes a timer only by `Fx15` or `Fx18`, which copy a register into it
(47_host_operations.md R189). -/
def Obligations.StepLeavesKeysAndTimers : Prop :=
  ∀ s t : State, step s = .next t →
    t.key = s.key ∧
    (t.dt ≠ s.dt → ∃ x, decodeWord (wordAtPc s) = some (.ldDtVx x) ∧ t.dt = s.readReg x) ∧
    (t.st ≠ s.st → ∃ x, decodeWord (wordAtPc s) = some (.ldStVx x) ∧ t.st = s.readReg x)

/-- VF changes only by the six flag writers and by instructions that name it as destination; a flag writer with another
destination leaves 0 or 1 in it (10_state.md R23). -/
def Obligations.FlagRegisterWriters : Prop :=
  ∀ (i : Instr) (s t : State), exec i s = .next t →
    (vf ∉ (writes i s).regs → t.readReg vf = s.readReg vf) ∧
    (match i with
      | .addReg x _ | .subReg x _ | .subnReg x _ | .shr x _ | .shl x _ =>
        x ≠ vf → t.readReg vf = 0 ∨ t.readReg vf = 1
      | .drw _ _ _ => t.readReg vf = 0 ∨ t.readReg vf = 1
      | _ => True)

/-! ### Flow control -/

/-- 40_flow_control.md R110. That FBC is set is the spec's decision (92_eei_decisions.md D15, log entry 6). -/
def Obligations.ClearScreen : Prop :=
  ∀ s : State, ∃ t, exec .cls s = .next t ∧ (∀ k < 2048, pixelOn t.fb k = false) ∧ t.fbc = true ∧
    OnlyChanges { elems := [.fb, .fbc] } s t

/-- 40_flow_control.md R111. -/
def Obligations.ReturnPopsStack : Prop :=
  ∀ s : State,
    (s.sp.val = 0 → exec .ret s = .fault (.stackUnderflow (encode .ret))) ∧
    (∀ k : Fin 16, s.sp.val = k.val + 1 → ∃ t, exec .ret s = .next t ∧ t.sp.val = k.val ∧ t.pc = s.stack[k.val] ∧
      t.stack = s.stack ∧ OnlyChanges { elems := [.stack, .pc] } s t)

/-- 40_flow_control.md R112; the jump to its own address leaves the state exactly as it was before the step. -/
def Obligations.Jump : Prop :=
  ∀ nnn : BitVec 12,
    (∀ s : State, ∃ t, exec (.jp nnn) s = .next t ∧ t.pc.toNat = nnn.toNat ∧ OnlyChanges { elems := [.pc] } s t) ∧
    (∀ s : State, About s (.jp nnn) → s.pc.toNat = nnn.toNat → step s = .next s)

/-- 40_flow_control.md R113. -/
def Obligations.CallPushesReturnAddress : Prop :=
  ∀ (nnn : BitVec 12) (s : State),
      (s.sp.val = 16 → exec (.call nnn) s = .fault (.stackOverflow (encode (.call nnn)))) ∧
      (∀ k : Fin 16, s.sp.val = k.val → ∃ t, exec (.call nnn) s = .next t ∧ t.sp.val = k.val + 1 ∧
        t.stack[k.val] = s.pc ∧ (∀ j : Fin 16, j ≠ k → t.stack[j.val] = s.stack[j.val]) ∧
        t.pc.toNat = nnn.toNat ∧ OnlyChanges { elems := [.stack, .pc] } s t)

/-- 40_flow_control.md R114: V0 whatever the digits of `nnn`; that the sum is exact is the spec's decision
(92_eei_decisions.md D10). -/
def Obligations.JumpWithOffset : Prop :=
  ∀ (nnn : BitVec 12) (s : State), ∃ t, exec (.jpV0 nnn) s = .next t ∧ t.pc.toNat = (s.readReg 0).toNat + nnn.toNat ∧
      OnlyChanges { elems := [.pc] } s t

/-- Call/return round trip (40_flow_control.md R111, R113): a call whose target is a return comes back to the instruction
after the call, with the stack pointer as before. -/
def Obligations.CallThenReturn : Prop :=
  ∀ (s : State) (nnn : BitVec 12), About s (.call nnn) → s.sp.val < 16 → nnn.toNat ≤ 0xFFE →
    decodeWord (wordAtPc (s.setPc (target nnn))) = some .ret →
    ∃ t u, step s = .next t ∧ step t = .next u ∧ u.pc.toNat = s.pc.toNat + 2 ∧ u.sp = s.sp ∧
      OnlyChanges { elems := [.stack, .pc] } s u

/-! ### Conditional skips -/

/-- 41_conditional_skip.md R120, R121. -/
def Obligations.SkipOnLiteral : Prop :=
  ∀ (x : Reg) (kk : Byte) (s : State),
      (∃ t, exec (.seImm x kk) s = .next t ∧ OnlyChanges { elems := [.pc] } s t ∧
        t.pc = if s.readReg x = kk then s.pc + 2 else s.pc) ∧
      (∃ t, exec (.sneImm x kk) s = .next t ∧ OnlyChanges { elems := [.pc] } s t ∧
        t.pc = if s.readReg x ≠ kk then s.pc + 2 else s.pc)

/-- 41_conditional_skip.md R122, R123. -/
def Obligations.SkipOnRegister : Prop :=
  ∀ (x y : Reg) (s : State),
      (∃ t, exec (.seReg x y) s = .next t ∧ OnlyChanges { elems := [.pc] } s t ∧
        t.pc = if s.readReg x = s.readReg y then s.pc + 2 else s.pc) ∧
      (∃ t, exec (.sneReg x y) s = .next t ∧ OnlyChanges { elems := [.pc] } s t ∧
        t.pc = if s.readReg x ≠ s.readReg y then s.pc + 2 else s.pc)

/-- 41_conditional_skip.md R124, R125: a key index above 15 faults, it is not masked, by the spec's decision
(92_eei_decisions.md D13, log entry 10). -/
def Obligations.SkipOnKey : Prop :=
  ∀ (x : Reg) (s : State),
      ((s.readReg x).toNat > 15 →
        exec (.skp x) s = .fault (.keyIndexOutOfRange (encode (.skp x)) (s.readReg x).toNat) ∧
        exec (.sknp x) s = .fault (.keyIndexOutOfRange (encode (.sknp x)) (s.readReg x).toNat)) ∧
      ((s.readReg x).toNat ≤ 15 →
        (∃ t, exec (.skp x) s = .next t ∧ OnlyChanges { elems := [.pc] } s t ∧
          t.pc = if s.keyHeld (s.readReg x).toNat = true then s.pc + 2 else s.pc) ∧
        (∃ t, exec (.sknp x) s = .next t ∧ OnlyChanges { elems := [.pc] } s t ∧
          t.pc = if s.keyHeld (s.readReg x).toNat = false then s.pc + 2 else s.pc))

/-! ### Register load, arithmetic, logic, shift, random -/

/-- 42_register_alu.md R130, R132. -/
def Obligations.LoadLiteralAndCopy : Prop :=
  ∀ (x y : Reg) (kk : Byte) (s : State),
      (∃ t, exec (.ldImm x kk) s = .next t ∧ t.readReg x = kk ∧ OnlyChanges { regs := [x] } s t) ∧
      (∃ t, exec (.ldReg x y) s = .next t ∧ t.readReg x = s.readReg y ∧ OnlyChanges { regs := [x] } s t)

/-- 42_register_alu.md R131: the sum wraps modulo 256, and VF is written only when it is the destination. -/
def Obligations.AddLiteral : Prop :=
  ∀ (x : Reg) (kk : Byte) (s : State), ∃ t, exec (.addImm x kk) s = .next t ∧
      (t.readReg x).toNat = ((s.readReg x).toNat + kk.toNat) % 256 ∧ OnlyChanges { regs := [x] } s t

/-- 42_register_alu.md R133, R134, R135, bit by bit; VF is left as it is. -/
def Obligations.BitwiseLogic : Prop :=
  ∀ (x y : Reg) (s : State),
      (∃ t, exec (.orReg x y) s = .next t ∧ OnlyChanges { regs := [x] } s t ∧
        ∀ b < 8, (t.readReg x).getLsbD b = ((s.readReg x).getLsbD b || (s.readReg y).getLsbD b)) ∧
      (∃ t, exec (.andReg x y) s = .next t ∧ OnlyChanges { regs := [x] } s t ∧
        ∀ b < 8, (t.readReg x).getLsbD b = ((s.readReg x).getLsbD b && (s.readReg y).getLsbD b)) ∧
      (∃ t, exec (.xorReg x y) s = .next t ∧ OnlyChanges { regs := [x] } s t ∧
        ∀ b < 8, (t.readReg x).getLsbD b = ((s.readReg x).getLsbD b != (s.readReg y).getLsbD b))

/-- 42_register_alu.md R136: the wrapped sum into Vx; VF is the carry unless it is the destination itself. -/
def Obligations.AddRegisters : Prop :=
  ∀ (x y : Reg) (s : State), ∃ t, exec (.addReg x y) s = .next t ∧
      (t.readReg x).toNat = ((s.readReg x).toNat + (s.readReg y).toNat) % 256 ∧
      (x ≠ vf → (t.readReg vf).toNat = if (s.readReg x).toNat + (s.readReg y).toNat > 255 then 1 else 0) ∧
      OnlyChanges { regs := [x, vf] } s t

/-- 42_register_alu.md R137: `(a - b) mod 256` into Vx; VF is 1 iff `a >= b` unless it is the destination itself. -/
def Obligations.SubtractRegisters : Prop :=
  ∀ (x y : Reg) (s : State), ∃ t, exec (.subReg x y) s = .next t ∧
      ((t.readReg x).toNat : Int) = (((s.readReg x).toNat : Int) - (s.readReg y).toNat) % 256 ∧
      (x ≠ vf → (t.readReg vf).toNat = if (s.readReg x).toNat ≥ (s.readReg y).toNat then 1 else 0) ∧
      OnlyChanges { regs := [x, vf] } s t

/-- 42_register_alu.md R138: `(b - a) mod 256` into Vx, not Vy; VF is 1 iff `b >= a` unless it is the destination itself. -/
def Obligations.ReverseSubtractRegisters : Prop :=
  ∀ (x y : Reg) (s : State), ∃ t, exec (.subnReg x y) s = .next t ∧
      ((t.readReg x).toNat : Int) = (((s.readReg y).toNat : Int) - (s.readReg x).toNat) % 256 ∧
      (x ≠ vf → (t.readReg vf).toNat = if (s.readReg y).toNat ≥ (s.readReg x).toNat then 1 else 0) ∧
      OnlyChanges { regs := [x, vf] } s t

/-- 42_register_alu.md R139: Vx is shifted in place whatever `y` is. That with `x = F` the result remains is the spec's decision
(92_eei_decisions.md D11, log entry 11). -/
def Obligations.ShiftRightOne : Prop :=
  ∀ (x y : Reg) (s : State), ∃ t, exec (.shr x y) s = .next t ∧
      (t.readReg x).toNat = (s.readReg x).toNat / 2 ∧
      (x ≠ vf → (t.readReg vf).toNat = (s.readReg x).toNat % 2) ∧
      OnlyChanges { regs := [x, vf] } s t

/-- 42_register_alu.md R140: Vx is shifted in place whatever `y` is. That with `x = F` the result remains is the spec's decision
(92_eei_decisions.md D11, log entry 11). -/
def Obligations.ShiftLeftOne : Prop :=
  ∀ (x y : Reg) (s : State), ∃ t, exec (.shl x y) s = .next t ∧
      (t.readReg x).toNat = (s.readReg x).toNat * 2 % 256 ∧
      (x ≠ vf → (t.readReg vf).toNat = (s.readReg x).toNat / 128) ∧
      OnlyChanges { regs := [x, vf] } s t

/-- 42_register_alu.md R143: with VF as destination the result is what remains, the flag is lost; both operands are read
before either write, so with `y = F` and another destination the operand is the old VF and VF is then the flag.
For the two shifts the order is the spec's decision (92_eei_decisions.md D11, log entry 11). -/
def Obligations.FlagWritersIntoVf : Prop :=
  (∀ (y : Reg) (s : State), ∃ a b c d e, exec (.addReg vf y) s = .next a ∧ exec (.subReg vf y) s = .next b ∧
    exec (.subnReg vf y) s = .next c ∧ exec (.shr vf y) s = .next d ∧ exec (.shl vf y) s = .next e ∧
    (a.readReg vf).toNat = ((s.readReg vf).toNat + (s.readReg y).toNat) % 256 ∧
    ((b.readReg vf).toNat : Int) = (((s.readReg vf).toNat : Int) - (s.readReg y).toNat) % 256 ∧
    ((c.readReg vf).toNat : Int) = (((s.readReg y).toNat : Int) - (s.readReg vf).toNat) % 256 ∧
    (d.readReg vf).toNat = (s.readReg vf).toNat / 2 ∧
    (e.readReg vf).toNat = (s.readReg vf).toNat * 2 % 256 ∧
    ∀ t ∈ [a, b, c, d, e], OnlyChanges { regs := [vf] } s t) ∧
  (∀ (x : Reg) (s : State), x ≠ vf → ∃ a b c, exec (.addReg x vf) s = .next a ∧ exec (.subReg x vf) s = .next b ∧
    exec (.subnReg x vf) s = .next c ∧
    (a.readReg x).toNat = ((s.readReg x).toNat + (s.readReg vf).toNat) % 256 ∧
    (a.readReg vf).toNat = (if (s.readReg x).toNat + (s.readReg vf).toNat > 255 then 1 else 0) ∧
    (b.readReg vf).toNat = (if (s.readReg x).toNat ≥ (s.readReg vf).toNat then 1 else 0) ∧
    (c.readReg vf).toNat = (if (s.readReg vf).toNat ≥ (s.readReg x).toNat then 1 else 0))

/-- 42_register_alu.md R144: the parameter is false on this hardware; with `true` operand and flag come from Vy, the result
goes to Vx, and Vy itself is unchanged unless it is Vx (or the flag). -/
def Obligations.ShiftVariant : Prop :=
  Config.shiftUsesVy = false ∧
  ∀ (x y : Reg) (s : State),
    exec (.shr x y) s = .next (shiftRight false x y s) ∧ exec (.shl x y) s = .next (shiftLeft false x y s) ∧
    ((shiftRight true x y s).readReg x).toNat = (s.readReg y).toNat / 2 ∧
    ((shiftLeft true x y s).readReg x).toNat = (s.readReg y).toNat * 2 % 256 ∧
    (x ≠ vf → ((shiftRight true x y s).readReg vf).toNat = (s.readReg y).toNat % 2 ∧
      ((shiftLeft true x y s).readReg vf).toNat = (s.readReg y).toNat / 128) ∧
    OnlyChanges { regs := [x, vf] } s (shiftRight true x y s) ∧
    OnlyChanges { regs := [x, vf] } s (shiftLeft true x y s)

/-- 42_register_alu.md R141: whatever the random byte of the step, it is masked into Vx; the byte is a free value
(log entry 1), so the statement holds for every byte. -/
def Obligations.RandomByteMasked : Prop :=
  ∀ (x : Reg) (kk : Byte) (s : State),
      (∃ t, exec (.rnd x kk) s = .next t ∧ t.readReg x = (Config.rnd s.freeCount &&& kk) ∧
        OnlyChanges { regs := [x], elems := [.free] } s t) ∧
      (∀ r : Byte, ∃ t, execWith r (.rnd x kk) s = .next t ∧ t.readReg x = (r &&& kk) ∧
        OnlyChanges { regs := [x], elems := [.free] } s t)

/-- Only `Cxkk` reads the random byte: two steps of one state with different bytes differ only when the instruction is
`Cxkk`, and then only in its destination (47_host_operations.md R187). -/
def Obligations.RandomByteReadOnlyByRnd : Prop :=
  ∀ (a b : Byte) (s : State),
    ((∀ x kk, decodeWord (wordAtPc s) ≠ some (.rnd x kk)) → stepWith a s = stepWith b s) ∧
    (∀ x kk, About s (.rnd x kk) → ∃ t u, stepWith a s = .next t ∧ stepWith b s = .next u ∧
      OnlyChanges { regs := [x] } t u)

/-! ### Index register and memory -/

/-- 43_index_memory.md R150, R151, R152. -/
def Obligations.IndexRegister : Prop :=
  ∀ (x : Reg) (nnn : BitVec 12) (s : State),
    (∃ t, exec (.ldI nnn) s = .next t ∧ t.i.toNat = nnn.toNat ∧ OnlyChanges { elems := [.i] } s t) ∧
    (∃ t, exec (.addI x) s = .next t ∧ t.i.toNat = (s.i.toNat + (s.readReg x).toNat) % 65536 ∧
      OnlyChanges { elems := [.i] } s t) ∧
    (∃ t, exec (.ldGlyph x) s = .next t ∧ t.i.toNat = (s.readReg x).toNat * 5 ∧ OnlyChanges { elems := [.i] } s t)

/-- 43_index_memory.md R153: the three digits reconstruct the value, I and Vx are unchanged, every other byte of memory reads
as before; the fault address is the first above 0xFFF. That I is unchanged and addresses are exact are the spec's decisions
(92_eei_decisions.md D10, D14). -/
def Obligations.StoreDecimalDigits : Prop :=
  ∀ (x : Reg) (s : State),
      (s.i.toNat + 2 ≤ 0xFFF → ∃ t, exec (.ldBcd x) s = .next t ∧
        (t.readByte s.i.toNat).toNat = (s.readReg x).toNat / 100 ∧
        (t.readByte (s.i.toNat + 1)).toNat = (s.readReg x).toNat / 10 % 10 ∧
        (t.readByte (s.i.toNat + 2)).toNat = (s.readReg x).toNat % 10 ∧
        (t.readByte s.i.toNat).toNat * 100 + (t.readByte (s.i.toNat + 1)).toNat * 10 +
          (t.readByte (s.i.toNat + 2)).toNat = (s.readReg x).toNat ∧
        OnlyChanges { bytes := [s.i.toNat, s.i.toNat + 1, s.i.toNat + 2] } s t) ∧
      (s.i.toNat + 2 > 0xFFF →
        exec (.ldBcd x) s = .fault (.memoryOutOfBounds (some (encode (.ldBcd x))) (max s.i.toNat 0x1000)))

/-- 43_index_memory.md R154: V0 to Vx land at I onwards, I and the registers are unchanged, every other byte reads as
before. I unchanged, exact addresses: 92_eei_decisions.md D10, D14. -/
def Obligations.StoreRegisters : Prop :=
  ∀ (x : Reg) (s : State),
      (s.i.toNat + x.val ≤ 0xFFF → ∃ t, exec (.storeRegs x) s = .next t ∧
        (∀ k : Reg, k ≤ x → t.readByte (s.i.toNat + k.val) = s.readReg k) ∧
        OnlyChanges { bytes := (List.range (x.val + 1)).map fun k => s.i.toNat + k } s t) ∧
      (s.i.toNat + x.val > 0xFFF →
        exec (.storeRegs x) s = .fault (.memoryOutOfBounds (some (encode (.storeRegs x))) (max s.i.toNat 0x1000)))

/-- 43_index_memory.md R155: V0 to Vx are loaded from I onwards, the registers above, I and memory are unchanged
(92_eei_decisions.md D10, D14). -/
def Obligations.LoadRegisters : Prop :=
  ∀ (x : Reg) (s : State),
      (s.i.toNat + x.val ≤ 0xFFF → ∃ t, exec (.loadRegs x) s = .next t ∧
        (∀ k : Reg, t.readReg k = if k ≤ x then s.readByte (s.i.toNat + k.val) else s.readReg k) ∧
        OnlyChanges { regs := (List.finRange 16).filter fun k => k ≤ x } s t) ∧
      (s.i.toNat + x.val > 0xFFF →
        exec (.loadRegs x) s = .fault (.memoryOutOfBounds (some (encode (.loadRegs x))) (max s.i.toNat 0x1000)))

/-- A byte stored by one step is seen by the next fetch: after `Fx55` with `x >= 1`, a fetch at I reads V0 and V1
(20_memory.md R63). -/
def Obligations.StoredCodeIsFetched : Prop :=
  ∀ (s : State) (x : Reg), About s (.storeRegs x) → 1 ≤ x.val → s.i.toNat + x.val ≤ 0xFFF →
    ∃ t, step s = .next t ∧ fetch (t.setPc s.i) = .next (wordOfBytes (s.readReg 0) (s.readReg 1))

/-! ### Timers and keys -/

/-- 44_timers_keys.md R160, R161, R162. -/
def Obligations.TimerInstructions : Prop :=
  ∀ (x : Reg) (s : State),
      (∃ t, exec (.ldVxDt x) s = .next t ∧ t.readReg x = s.dt ∧ OnlyChanges { regs := [x] } s t) ∧
      (∃ t, exec (.ldDtVx x) s = .next t ∧ t.dt = s.readReg x ∧ OnlyChanges { elems := [.dt] } s t) ∧
      (∃ t, exec (.ldStVx x) s = .next t ∧ t.st = s.readReg x ∧ (toneActive t = true ↔ s.readReg x ≠ 0) ∧
        OnlyChanges { elems := [.st] } s t)

/-- 44_timers_keys.md R163: the lowest held key is stored; with no key held the step leaves the whole state as it was. -/
def Obligations.BlockingKeyRead : Prop :=
  ∀ (x : Reg) (s : State),
      (∀ k < 16, s.keyHeld k = true → (∀ j < k, s.keyHeld j = false) →
        ∃ t, exec (.ldVxKey x) s = .next t ∧ (t.readReg x).toNat = k ∧ OnlyChanges { regs := [x] } s t) ∧
      ((∀ k < 16, s.keyHeld k = false) →
        (∃ t, exec (.ldVxKey x) s = .next t ∧ t.pc = s.pc - 2 ∧ OnlyChanges { elems := [.pc] } s t) ∧
        (About s (.ldVxKey x) → step s = .next s))

/-! ### Draw and no-op -/

/-- 45_draw.md R170, R172: every pixel under a set sprite bit is inverted and no other; VF tells whether one of them was on,
with the coordinates read before VF is written; FBC is set; the fault address is the first above 0xFFF. The order of reads and
the VF write, and exact addresses, are the spec's decisions (92_eei_decisions.md D10, D12, log entry 12). -/
def Obligations.DrawSprite : Prop :=
  ∀ (x y : Reg) (n : BitVec 4) (s : State),
      (n.toNat = 0 ∨ s.i.toNat + n.toNat - 1 ≤ 0xFFF → ∃ t, exec (.drw x y n) s = .next t ∧
        (∀ k < 2048, pixelOn t.fb k = (pixelOn s.fb k != spriteCovers x y n.toNat s k)) ∧
        ((∃ k < 2048, spriteCovers x y n.toNat s k = true ∧ pixelOn s.fb k = true) → t.readReg vf = 1) ∧
        ((∀ k < 2048, spriteCovers x y n.toNat s k = true → pixelOn s.fb k = false) → t.readReg vf = 0) ∧
        t.fbc = true ∧ OnlyChanges { regs := [vf], elems := [.fb, .fbc] } s t) ∧
      (n.toNat ≥ 1 → s.i.toNat + n.toNat - 1 > 0xFFF →
        exec (.drw x y n) s = .fault (.memoryOutOfBounds (some (encode (.drw x y n))) (max s.i.toNat 0x1000)))

/-- Drawing the same sprite twice at the same place restores the framebuffer, and the second draw sets VF exactly when a set
sprite bit fell on an off pixel (45_draw.md R171 (b)). -/
def Obligations.DrawTwiceRestores : Prop :=
  ∀ (x y : Reg) (n : BitVec 4) (s : State), x ≠ vf → y ≠ vf → n.toNat = 0 ∨ s.i.toNat + n.toNat - 1 ≤ 0xFFF →
    ∃ t u, exec (.drw x y n) s = .next t ∧ exec (.drw x y n) t = .next u ∧ u.fb = s.fb ∧
      (u.readReg vf = if ∃ k : Fin 2048, spriteCovers x y n.toNat s k.val = true ∧ pixelOn s.fb k.val = false
        then 1 else 0)

/-- Only the low 6 bits of the column and the low 5 bits of the row matter (45_draw.md R171 (d)). -/
def Obligations.DrawCoordinatesWrap : Prop :=
  ∀ (vx vy : Nat) (sprite : List Byte) (f : Frame),
    drawSprite vx vy sprite f = drawSprite (vx % 64) (vy % 32) sprite f

/-- 46_nop.md R180. -/
def Obligations.NoOperation : Prop :=
  (∀ w : Word, decodeWord w = some .nop → w = 0x0000) ∧
  (∀ s : State, exec .nop s = .next s) ∧
  (∀ s : State, About s .nop → ∃ t, step s = .next t ∧ t.pc.toNat = s.pc.toNat + 2 ∧
    OnlyChanges { elems := [.pc] } s t)

/-! ### Reset, timers, host boundary -/

/-- 70_reset_and_hazards.md R240, R241: every element after `reset()` or `construct()`, whatever it held before; a second one
changes nothing. FBC and FLT are the spec's decisions (92_eei_decisions.md D6, D15); the model's own counter of free
values goes on (log entry 1). -/
def Obligations.ResetState : Prop :=
  ∀ (op : HostOp) (s : State), op = .reset ∨ op = .construct → ∃ t, perform op s = .next t ∧
    (∀ x : Reg, t.readReg x = 0) ∧ t.i = 0 ∧ t.pc = 0x0200 ∧ t.sp.val = 0 ∧ (∀ k : Fin 16, t.stack[k.val] = 0) ∧
    (∀ a < 80, t.readByte a = Config.font.getD a 0) ∧ (∀ a, 80 ≤ a → a < 4096 → t.readByte a = 0) ∧
    (∀ k < 2048, pixelOn t.fb k = false) ∧ (∀ k < 16, t.keyHeld k = false) ∧ t.dt = 0 ∧ t.st = 0 ∧ t.fbc = false ∧
    t.flt = none ∧ t.mode = .run ∧ t = { State.reset with freeCount := s.freeCount } ∧ perform op t = .next t

/-- 47_host_operations.md R195. -/
def Obligations.TimerTick : Prop :=
  ∀ s : State, s.mode = .run → ∃ t, perform .tickTimers s = .next t ∧
    t.dt.toNat = (if s.dt.toNat ≠ 0 then s.dt.toNat - 1 else 0) ∧
    t.st.toNat = (if s.st.toNat ≠ 0 then s.st.toNat - 1 else 0) ∧ OnlyChanges { elems := [.dt, .st] } s t

/-- 47_host_operations.md R196: the level after `Fx18`, after `n` ticks, and after reset. -/
def Obligations.ToneLevel : Prop :=
  (∀ s : State, toneActive s = true ↔ s.st.toNat ≠ 0) ∧
  (∀ (n : Nat) (s : State), toneActive (tickTimes n s) = decide (n < s.st.toNat)) ∧
  (∀ (x : Reg) (s : State), ∃ t, exec (.ldStVx x) s = .next t ∧ (toneActive t = true ↔ s.readReg x ≠ 0)) ∧
  (∀ s t : State, perform .reset s = .next t → toneActive t = false)

/-- 47_host_operations.md R197, R200. The fault of an index above 15 and `ack_frame` are the spec's decisions
(92_eei_decisions.md D15, D22). -/
def Obligations.SetKeyAndAcknowledge : Prop :=
  ∀ (k : Nat) (held : Bool) (s : State), s.mode = .run →
    (∃ t, perform .ackFrame s = .next t ∧ t.fbc = false ∧ OnlyChanges { elems := [.fbc] } s t) ∧
    (k > 15 → perform (.setKey k held) s = .fault (.hostKeyIndexOutOfRange k)) ∧
    (k ≤ 15 → ∃ t, perform (.setKey k held) s = .next t ∧
      (∀ j < 16, t.keyHeld j = if j = k then held else s.keyHeld j) ∧ OnlyChanges { elems := [.key] } s t)

/-- 47_host_operations.md R198: on a machine as a reset leaves it, apart from KEY, the image is copied to 0x200 onwards and
nothing else changes; more than 3584 bytes fault; in every other running state it is refused, as the rule asks
(92_eei_decisions.md D16, log entry 13). -/
def Obligations.LoadProgram : Prop :=
  ∀ (bytes : List Byte) (s : State), s.mode = .run →
    (untouched s = true → bytes.length > 3584 →
      perform (.loadProgram bytes) s = .fault (.programTooLarge bytes.length)) ∧
    (untouched s = true → bytes.length ≤ 3584 → ∃ t, perform (.loadProgram bytes) s = .next t ∧
      (∀ j < bytes.length, t.readByte (0x200 + j) = bytes.getD j 0) ∧
      OnlyChanges { bytes := (List.range bytes.length).map fun j => 0x200 + j } s t) ∧
    (untouched s = false → perform (.loadProgram bytes) s = .refused .loadOnUsedMachine) ∧
    (untouched s = true ↔ ∃ (keys : BitVec 16) (n : Nat), s = { State.reset with key := keys, freeCount := n })

/-- 47_host_operations.md R199, R201: what the two observations return, pixel by pixel, and that they change nothing. -/
def Obligations.Observations : Prop :=
  ∀ s : State, s.mode = .run →
    (∃ f, framebuffer s = .ok f ∧ ∀ px < 64, ∀ py < 32, pixelOn f (py * 64 + px) = pixelOn s.fb (py * 64 + px)) ∧
    perform .framebuffer s = .next s ∧
    soundActive s = .ok (decide (s.st ≠ 0)) ∧ perform .soundActive s = .next s

/-- Which operation is refused in which mode, and that in `RUN` only a `load_program` on a used machine is
(47_host_operations.md R186, the spec's decisions D16, D20, D21 of 92_eei_decisions.md, log entry 13). -/
def Obligations.RefusedOperations : Prop :=
  ∀ (op : HostOp) (s : State),
    (s.mode = .uninit → op ≠ .construct → op ≠ .reset → perform op s = .refused .notInitialised) ∧
    (s.mode = .faulted → op ≠ .construct → op ≠ .reset → op ≠ .framebuffer → op ≠ .soundActive →
      perform op s = .refused .machineFaulted) ∧
    (∀ r, perform op s = .refused r → s.mode = .run → ∃ bytes, op = .loadProgram bytes ∧ untouched s = false)

/-- 60_exceptions.md R214: a fault sets FLT and the mode `FAULTED`, and no later operation but a reset clears it
(92_eei_decisions.md D6, log entry 2). -/
def Obligations.FaultIsLatched : Prop :=
  ∀ (op : HostOp) (s : State) (f : Fault), perform op s = .fault f → ∃ t, afterOp op s = some t ∧
    t.flt = some f ∧ t.mode = .faulted ∧
    ∀ (op' : HostOp) (u : State), op' ≠ .reset → op' ≠ .construct → afterOp op' t = some u → u = t

/-- The machine's own step is refused outside mode `RUN` (47_host_operations.md R186), and is otherwise the host's `step(rnd)`
with the free random byte (R187, log entry 1). -/
def Obligations.StepModes : Prop :=
  ∀ s : State,
    (s.mode = .uninit → step s = .refused .notInitialised) ∧ (s.mode = .faulted → step s = .refused .machineFaulted) ∧
    (s.mode = .run → step s = perform (.step (Config.rnd s.freeCount)) s) ∧
    (s.mode = .run → ∀ r, step s ≠ .refused r)

/-- The boot order from any state whatever: after a reset and a load the image is in memory, PC is at its first byte, and the
machine runs (70_reset_and_hazards.md R246, 47_host_operations.md R198; the refusal of other loads is the spec's decision
92_eei_decisions.md D16, log entry 13). The conjunct `Inv t` is of the model: its memory clause is the model's own canonical layout
(log entry 16, DESIGN CHOICE), its bounds on PC and stack slots are those of 10_state.md R25 and 40_flow_control.md R111, R113
(exact sums, 92_eei_decisions.md D10, log entry 9). -/
def Obligations.BootOrder : Prop :=
  ∀ (bytes : List Byte) (s : State), bytes.length ≤ 3584 →
    ∃ t, session [.reset, .loadProgram bytes] s = some t ∧ t.mode = .run ∧ t.pc.toNat = 0x200 ∧
      (∀ j < bytes.length, t.readByte (0x200 + j) = bytes.getD j 0) ∧ Inv t

/-! ### Invariants -/

/-- The reset state meets the invariant. The memory clause is the model's own canonical layout (log entry 16, DESIGN CHOICE), no
rule of the spec; the bounds on PC and stack slots are those of 10_state.md R25 and 40_flow_control.md R111, R113 (exact sums,
92_eei_decisions.md D10, log entry 9), met by the reset values of 70_reset_and_hazards.md R240. -/
def Obligations.ResetMeetsInvariant : Prop := Inv State.reset

/-- Every step keeps the invariant: canonical memory, PC at most 0x10FE, stack slots at most 0x1000. The memory clause is the
model's own layout (log entry 16, DESIGN CHOICE), no rule of the spec; the bounds are those of 10_state.md R25 and
40_flow_control.md R111, R113 (exact sums, 92_eei_decisions.md D10, log entry 9). -/
def Obligations.StepKeepsInvariant : Prop := ∀ s t : State, Inv s → step s = .next t → Inv t

/-- Every host operation, its fault included, keeps the invariant of a running machine (47_host_operations.md R185, R188). The
memory clause is the model's own layout (log entry 16, DESIGN CHOICE), no rule of the spec; the bounds are those of
10_state.md R25 and 40_flow_control.md R111, R113 (exact sums, 92_eei_decisions.md D10, log entry 9); that nothing is asked of a
faulted machine follows 60_exceptions.md R216 (92_eei_decisions.md D6, log entry 2). -/
def Obligations.HostOperationKeepsInvariant : Prop :=
  ∀ (op : HostOp) (s t : State), RunInv s → afterOp op s = some t → RunInv t
end

