-- ==== Sys2Proof/Laws/State.lean ====
section
/-! SUPPORT. What each update of the state does to each field, one lemma per field per update, so that no proof unfolds a
record update. -/

namespace Sys2Proof.Machine

section
variable (s : State)

@[simp] theorem State.writeReg_v (x : Reg) (b : Byte) : (s.writeReg x b).v = s.v.set x.val b := rfl
@[simp] theorem State.writeReg_i (x : Reg) (b : Byte) : (s.writeReg x b).i = s.i := rfl
@[simp] theorem State.writeReg_pc (x : Reg) (b : Byte) : (s.writeReg x b).pc = s.pc := rfl
@[simp] theorem State.writeReg_sp (x : Reg) (b : Byte) : (s.writeReg x b).sp = s.sp := rfl
@[simp] theorem State.writeReg_stack (x : Reg) (b : Byte) : (s.writeReg x b).stack = s.stack := rfl
@[simp] theorem State.writeReg_mem (x : Reg) (b : Byte) : (s.writeReg x b).mem = s.mem := rfl
@[simp] theorem State.writeReg_fb (x : Reg) (b : Byte) : (s.writeReg x b).fb = s.fb := rfl
@[simp] theorem State.writeReg_key (x : Reg) (b : Byte) : (s.writeReg x b).key = s.key := rfl
@[simp] theorem State.writeReg_dt (x : Reg) (b : Byte) : (s.writeReg x b).dt = s.dt := rfl
@[simp] theorem State.writeReg_st (x : Reg) (b : Byte) : (s.writeReg x b).st = s.st := rfl
@[simp] theorem State.writeReg_fbc (x : Reg) (b : Byte) : (s.writeReg x b).fbc = s.fbc := rfl
@[simp] theorem State.writeReg_flt (x : Reg) (b : Byte) : (s.writeReg x b).flt = s.flt := rfl
@[simp] theorem State.writeReg_initialised (x : Reg) (b : Byte) : (s.writeReg x b).initialised = s.initialised := rfl
@[simp] theorem State.writeReg_freeCount (x : Reg) (b : Byte) : (s.writeReg x b).freeCount = s.freeCount := rfl
@[simp] theorem State.writeReg_readByte (x : Reg) (b : Byte) (c : Nat) : (s.writeReg x b).readByte c = s.readByte c := rfl
@[simp] theorem State.writeReg_mode (x : Reg) (b : Byte) : (s.writeReg x b).mode = s.mode := rfl

@[simp] theorem State.setI_v (w : Word) : (s.setI w).v = s.v := rfl
@[simp] theorem State.setI_i (w : Word) : (s.setI w).i = w := rfl
@[simp] theorem State.setI_pc (w : Word) : (s.setI w).pc = s.pc := rfl
@[simp] theorem State.setI_sp (w : Word) : (s.setI w).sp = s.sp := rfl
@[simp] theorem State.setI_stack (w : Word) : (s.setI w).stack = s.stack := rfl
@[simp] theorem State.setI_mem (w : Word) : (s.setI w).mem = s.mem := rfl
@[simp] theorem State.setI_fb (w : Word) : (s.setI w).fb = s.fb := rfl
@[simp] theorem State.setI_key (w : Word) : (s.setI w).key = s.key := rfl
@[simp] theorem State.setI_dt (w : Word) : (s.setI w).dt = s.dt := rfl
@[simp] theorem State.setI_st (w : Word) : (s.setI w).st = s.st := rfl
@[simp] theorem State.setI_fbc (w : Word) : (s.setI w).fbc = s.fbc := rfl
@[simp] theorem State.setI_flt (w : Word) : (s.setI w).flt = s.flt := rfl
@[simp] theorem State.setI_initialised (w : Word) : (s.setI w).initialised = s.initialised := rfl
@[simp] theorem State.setI_freeCount (w : Word) : (s.setI w).freeCount = s.freeCount := rfl
@[simp] theorem State.setI_readReg (w : Word) (y : Reg) : (s.setI w).readReg y = s.readReg y := rfl
@[simp] theorem State.setI_readByte (w : Word) (c : Nat) : (s.setI w).readByte c = s.readByte c := rfl
@[simp] theorem State.setI_mode (w : Word) : (s.setI w).mode = s.mode := rfl

@[simp] theorem State.setPc_v (w : Word) : (s.setPc w).v = s.v := rfl
@[simp] theorem State.setPc_i (w : Word) : (s.setPc w).i = s.i := rfl
@[simp] theorem State.setPc_pc (w : Word) : (s.setPc w).pc = w := rfl
@[simp] theorem State.setPc_sp (w : Word) : (s.setPc w).sp = s.sp := rfl
@[simp] theorem State.setPc_stack (w : Word) : (s.setPc w).stack = s.stack := rfl
@[simp] theorem State.setPc_mem (w : Word) : (s.setPc w).mem = s.mem := rfl
@[simp] theorem State.setPc_fb (w : Word) : (s.setPc w).fb = s.fb := rfl
@[simp] theorem State.setPc_key (w : Word) : (s.setPc w).key = s.key := rfl
@[simp] theorem State.setPc_dt (w : Word) : (s.setPc w).dt = s.dt := rfl
@[simp] theorem State.setPc_st (w : Word) : (s.setPc w).st = s.st := rfl
@[simp] theorem State.setPc_fbc (w : Word) : (s.setPc w).fbc = s.fbc := rfl
@[simp] theorem State.setPc_flt (w : Word) : (s.setPc w).flt = s.flt := rfl
@[simp] theorem State.setPc_initialised (w : Word) : (s.setPc w).initialised = s.initialised := rfl
@[simp] theorem State.setPc_freeCount (w : Word) : (s.setPc w).freeCount = s.freeCount := rfl
@[simp] theorem State.setPc_readReg (w : Word) (y : Reg) : (s.setPc w).readReg y = s.readReg y := rfl
@[simp] theorem State.setPc_readByte (w : Word) (c : Nat) : (s.setPc w).readByte c = s.readByte c := rfl
@[simp] theorem State.setPc_mode (w : Word) : (s.setPc w).mode = s.mode := rfl

@[simp] theorem State.setDt_v (b : Byte) : (s.setDt b).v = s.v := rfl
@[simp] theorem State.setDt_i (b : Byte) : (s.setDt b).i = s.i := rfl
@[simp] theorem State.setDt_pc (b : Byte) : (s.setDt b).pc = s.pc := rfl
@[simp] theorem State.setDt_sp (b : Byte) : (s.setDt b).sp = s.sp := rfl
@[simp] theorem State.setDt_stack (b : Byte) : (s.setDt b).stack = s.stack := rfl
@[simp] theorem State.setDt_mem (b : Byte) : (s.setDt b).mem = s.mem := rfl
@[simp] theorem State.setDt_fb (b : Byte) : (s.setDt b).fb = s.fb := rfl
@[simp] theorem State.setDt_key (b : Byte) : (s.setDt b).key = s.key := rfl
@[simp] theorem State.setDt_dt (b : Byte) : (s.setDt b).dt = b := rfl
@[simp] theorem State.setDt_st (b : Byte) : (s.setDt b).st = s.st := rfl
@[simp] theorem State.setDt_fbc (b : Byte) : (s.setDt b).fbc = s.fbc := rfl
@[simp] theorem State.setDt_flt (b : Byte) : (s.setDt b).flt = s.flt := rfl
@[simp] theorem State.setDt_initialised (b : Byte) : (s.setDt b).initialised = s.initialised := rfl
@[simp] theorem State.setDt_freeCount (b : Byte) : (s.setDt b).freeCount = s.freeCount := rfl
@[simp] theorem State.setDt_readReg (b : Byte) (y : Reg) : (s.setDt b).readReg y = s.readReg y := rfl
@[simp] theorem State.setDt_readByte (b : Byte) (c : Nat) : (s.setDt b).readByte c = s.readByte c := rfl
@[simp] theorem State.setDt_mode (b : Byte) : (s.setDt b).mode = s.mode := rfl

@[simp] theorem State.setSt_v (b : Byte) : (s.setSt b).v = s.v := rfl
@[simp] theorem State.setSt_i (b : Byte) : (s.setSt b).i = s.i := rfl
@[simp] theorem State.setSt_pc (b : Byte) : (s.setSt b).pc = s.pc := rfl
@[simp] theorem State.setSt_sp (b : Byte) : (s.setSt b).sp = s.sp := rfl
@[simp] theorem State.setSt_stack (b : Byte) : (s.setSt b).stack = s.stack := rfl
@[simp] theorem State.setSt_mem (b : Byte) : (s.setSt b).mem = s.mem := rfl
@[simp] theorem State.setSt_fb (b : Byte) : (s.setSt b).fb = s.fb := rfl
@[simp] theorem State.setSt_key (b : Byte) : (s.setSt b).key = s.key := rfl
@[simp] theorem State.setSt_dt (b : Byte) : (s.setSt b).dt = s.dt := rfl
@[simp] theorem State.setSt_st (b : Byte) : (s.setSt b).st = b := rfl
@[simp] theorem State.setSt_fbc (b : Byte) : (s.setSt b).fbc = s.fbc := rfl
@[simp] theorem State.setSt_flt (b : Byte) : (s.setSt b).flt = s.flt := rfl
@[simp] theorem State.setSt_initialised (b : Byte) : (s.setSt b).initialised = s.initialised := rfl
@[simp] theorem State.setSt_freeCount (b : Byte) : (s.setSt b).freeCount = s.freeCount := rfl
@[simp] theorem State.setSt_readReg (b : Byte) (y : Reg) : (s.setSt b).readReg y = s.readReg y := rfl
@[simp] theorem State.setSt_readByte (b : Byte) (c : Nat) : (s.setSt b).readByte c = s.readByte c := rfl
@[simp] theorem State.setSt_mode (b : Byte) : (s.setSt b).mode = s.mode := rfl

@[simp] theorem State.setFb_v (f : Frame) : (s.setFb f).v = s.v := rfl
@[simp] theorem State.setFb_i (f : Frame) : (s.setFb f).i = s.i := rfl
@[simp] theorem State.setFb_pc (f : Frame) : (s.setFb f).pc = s.pc := rfl
@[simp] theorem State.setFb_sp (f : Frame) : (s.setFb f).sp = s.sp := rfl
@[simp] theorem State.setFb_stack (f : Frame) : (s.setFb f).stack = s.stack := rfl
@[simp] theorem State.setFb_mem (f : Frame) : (s.setFb f).mem = s.mem := rfl
@[simp] theorem State.setFb_fb (f : Frame) : (s.setFb f).fb = f := rfl
@[simp] theorem State.setFb_key (f : Frame) : (s.setFb f).key = s.key := rfl
@[simp] theorem State.setFb_dt (f : Frame) : (s.setFb f).dt = s.dt := rfl
@[simp] theorem State.setFb_st (f : Frame) : (s.setFb f).st = s.st := rfl
@[simp] theorem State.setFb_fbc (f : Frame) : (s.setFb f).fbc = s.fbc := rfl
@[simp] theorem State.setFb_flt (f : Frame) : (s.setFb f).flt = s.flt := rfl
@[simp] theorem State.setFb_initialised (f : Frame) : (s.setFb f).initialised = s.initialised := rfl
@[simp] theorem State.setFb_freeCount (f : Frame) : (s.setFb f).freeCount = s.freeCount := rfl
@[simp] theorem State.setFb_readReg (f : Frame) (y : Reg) : (s.setFb f).readReg y = s.readReg y := rfl
@[simp] theorem State.setFb_readByte (f : Frame) (c : Nat) : (s.setFb f).readByte c = s.readByte c := rfl
@[simp] theorem State.setFb_mode (f : Frame) : (s.setFb f).mode = s.mode := rfl

@[simp] theorem State.setFbc_v (b : Bool) : (s.setFbc b).v = s.v := rfl
@[simp] theorem State.setFbc_i (b : Bool) : (s.setFbc b).i = s.i := rfl
@[simp] theorem State.setFbc_pc (b : Bool) : (s.setFbc b).pc = s.pc := rfl
@[simp] theorem State.setFbc_sp (b : Bool) : (s.setFbc b).sp = s.sp := rfl
@[simp] theorem State.setFbc_stack (b : Bool) : (s.setFbc b).stack = s.stack := rfl
@[simp] theorem State.setFbc_mem (b : Bool) : (s.setFbc b).mem = s.mem := rfl
@[simp] theorem State.setFbc_fb (b : Bool) : (s.setFbc b).fb = s.fb := rfl
@[simp] theorem State.setFbc_key (b : Bool) : (s.setFbc b).key = s.key := rfl
@[simp] theorem State.setFbc_dt (b : Bool) : (s.setFbc b).dt = s.dt := rfl
@[simp] theorem State.setFbc_st (b : Bool) : (s.setFbc b).st = s.st := rfl
@[simp] theorem State.setFbc_fbc (b : Bool) : (s.setFbc b).fbc = b := rfl
@[simp] theorem State.setFbc_flt (b : Bool) : (s.setFbc b).flt = s.flt := rfl
@[simp] theorem State.setFbc_initialised (b : Bool) : (s.setFbc b).initialised = s.initialised := rfl
@[simp] theorem State.setFbc_freeCount (b : Bool) : (s.setFbc b).freeCount = s.freeCount := rfl
@[simp] theorem State.setFbc_readReg (b : Bool) (y : Reg) : (s.setFbc b).readReg y = s.readReg y := rfl
@[simp] theorem State.setFbc_readByte (b : Bool) (c : Nat) : (s.setFbc b).readByte c = s.readByte c := rfl
@[simp] theorem State.setFbc_mode (b : Bool) : (s.setFbc b).mode = s.mode := rfl

@[simp] theorem State.setKeys_v (k : BitVec 16) : (s.setKeys k).v = s.v := rfl
@[simp] theorem State.setKeys_i (k : BitVec 16) : (s.setKeys k).i = s.i := rfl
@[simp] theorem State.setKeys_pc (k : BitVec 16) : (s.setKeys k).pc = s.pc := rfl
@[simp] theorem State.setKeys_sp (k : BitVec 16) : (s.setKeys k).sp = s.sp := rfl
@[simp] theorem State.setKeys_stack (k : BitVec 16) : (s.setKeys k).stack = s.stack := rfl
@[simp] theorem State.setKeys_mem (k : BitVec 16) : (s.setKeys k).mem = s.mem := rfl
@[simp] theorem State.setKeys_fb (k : BitVec 16) : (s.setKeys k).fb = s.fb := rfl
@[simp] theorem State.setKeys_key (k : BitVec 16) : (s.setKeys k).key = k := rfl
@[simp] theorem State.setKeys_dt (k : BitVec 16) : (s.setKeys k).dt = s.dt := rfl
@[simp] theorem State.setKeys_st (k : BitVec 16) : (s.setKeys k).st = s.st := rfl
@[simp] theorem State.setKeys_fbc (k : BitVec 16) : (s.setKeys k).fbc = s.fbc := rfl
@[simp] theorem State.setKeys_flt (k : BitVec 16) : (s.setKeys k).flt = s.flt := rfl
@[simp] theorem State.setKeys_initialised (k : BitVec 16) : (s.setKeys k).initialised = s.initialised := rfl
@[simp] theorem State.setKeys_freeCount (k : BitVec 16) : (s.setKeys k).freeCount = s.freeCount := rfl
@[simp] theorem State.setKeys_readReg (k : BitVec 16) (y : Reg) : (s.setKeys k).readReg y = s.readReg y := rfl
@[simp] theorem State.setKeys_readByte (k : BitVec 16) (c : Nat) : (s.setKeys k).readByte c = s.readByte c := rfl
@[simp] theorem State.setKeys_mode (k : BitVec 16) : (s.setKeys k).mode = s.mode := rfl

@[simp] theorem State.setMem_v (m : Memory) : (s.setMem m).v = s.v := rfl
@[simp] theorem State.setMem_i (m : Memory) : (s.setMem m).i = s.i := rfl
@[simp] theorem State.setMem_pc (m : Memory) : (s.setMem m).pc = s.pc := rfl
@[simp] theorem State.setMem_sp (m : Memory) : (s.setMem m).sp = s.sp := rfl
@[simp] theorem State.setMem_stack (m : Memory) : (s.setMem m).stack = s.stack := rfl
@[simp] theorem State.setMem_mem (m : Memory) : (s.setMem m).mem = m := rfl
@[simp] theorem State.setMem_fb (m : Memory) : (s.setMem m).fb = s.fb := rfl
@[simp] theorem State.setMem_key (m : Memory) : (s.setMem m).key = s.key := rfl
@[simp] theorem State.setMem_dt (m : Memory) : (s.setMem m).dt = s.dt := rfl
@[simp] theorem State.setMem_st (m : Memory) : (s.setMem m).st = s.st := rfl
@[simp] theorem State.setMem_fbc (m : Memory) : (s.setMem m).fbc = s.fbc := rfl
@[simp] theorem State.setMem_flt (m : Memory) : (s.setMem m).flt = s.flt := rfl
@[simp] theorem State.setMem_initialised (m : Memory) : (s.setMem m).initialised = s.initialised := rfl
@[simp] theorem State.setMem_freeCount (m : Memory) : (s.setMem m).freeCount = s.freeCount := rfl
@[simp] theorem State.setMem_readReg (m : Memory) (y : Reg) : (s.setMem m).readReg y = s.readReg y := rfl
@[simp] theorem State.setMem_mode (m : Memory) : (s.setMem m).mode = s.mode := rfl

@[simp] theorem State.setRegs_v (v : Vector Byte 16) : (s.setRegs v).v = v := rfl
@[simp] theorem State.setRegs_i (v : Vector Byte 16) : (s.setRegs v).i = s.i := rfl
@[simp] theorem State.setRegs_pc (v : Vector Byte 16) : (s.setRegs v).pc = s.pc := rfl
@[simp] theorem State.setRegs_sp (v : Vector Byte 16) : (s.setRegs v).sp = s.sp := rfl
@[simp] theorem State.setRegs_stack (v : Vector Byte 16) : (s.setRegs v).stack = s.stack := rfl
@[simp] theorem State.setRegs_mem (v : Vector Byte 16) : (s.setRegs v).mem = s.mem := rfl
@[simp] theorem State.setRegs_fb (v : Vector Byte 16) : (s.setRegs v).fb = s.fb := rfl
@[simp] theorem State.setRegs_key (v : Vector Byte 16) : (s.setRegs v).key = s.key := rfl
@[simp] theorem State.setRegs_dt (v : Vector Byte 16) : (s.setRegs v).dt = s.dt := rfl
@[simp] theorem State.setRegs_st (v : Vector Byte 16) : (s.setRegs v).st = s.st := rfl
@[simp] theorem State.setRegs_fbc (v : Vector Byte 16) : (s.setRegs v).fbc = s.fbc := rfl
@[simp] theorem State.setRegs_flt (v : Vector Byte 16) : (s.setRegs v).flt = s.flt := rfl
@[simp] theorem State.setRegs_initialised (v : Vector Byte 16) : (s.setRegs v).initialised = s.initialised := rfl
@[simp] theorem State.setRegs_freeCount (v : Vector Byte 16) : (s.setRegs v).freeCount = s.freeCount := rfl
@[simp] theorem State.setRegs_readByte (v : Vector Byte 16) (c : Nat) : (s.setRegs v).readByte c = s.readByte c := rfl
@[simp] theorem State.setRegs_mode (v : Vector Byte 16) : (s.setRegs v).mode = s.mode := rfl

@[simp] theorem State.setStack_v (k : Vector Word 16) (p : Fin 17) : (s.setStack k p).v = s.v := rfl
@[simp] theorem State.setStack_i (k : Vector Word 16) (p : Fin 17) : (s.setStack k p).i = s.i := rfl
@[simp] theorem State.setStack_pc (k : Vector Word 16) (p : Fin 17) : (s.setStack k p).pc = s.pc := rfl
@[simp] theorem State.setStack_sp (k : Vector Word 16) (p : Fin 17) : (s.setStack k p).sp = p := rfl
@[simp] theorem State.setStack_stack (k : Vector Word 16) (p : Fin 17) : (s.setStack k p).stack = k := rfl
@[simp] theorem State.setStack_mem (k : Vector Word 16) (p : Fin 17) : (s.setStack k p).mem = s.mem := rfl
@[simp] theorem State.setStack_fb (k : Vector Word 16) (p : Fin 17) : (s.setStack k p).fb = s.fb := rfl
@[simp] theorem State.setStack_key (k : Vector Word 16) (p : Fin 17) : (s.setStack k p).key = s.key := rfl
@[simp] theorem State.setStack_dt (k : Vector Word 16) (p : Fin 17) : (s.setStack k p).dt = s.dt := rfl
@[simp] theorem State.setStack_st (k : Vector Word 16) (p : Fin 17) : (s.setStack k p).st = s.st := rfl
@[simp] theorem State.setStack_fbc (k : Vector Word 16) (p : Fin 17) : (s.setStack k p).fbc = s.fbc := rfl
@[simp] theorem State.setStack_flt (k : Vector Word 16) (p : Fin 17) : (s.setStack k p).flt = s.flt := rfl
@[simp] theorem State.setStack_initialised (k : Vector Word 16) (p : Fin 17) : (s.setStack k p).initialised = s.initialised := rfl
@[simp] theorem State.setStack_freeCount (k : Vector Word 16) (p : Fin 17) : (s.setStack k p).freeCount = s.freeCount := rfl
@[simp] theorem State.setStack_readReg (k : Vector Word 16) (p : Fin 17) (y : Reg) : (s.setStack k p).readReg y = s.readReg y := rfl
@[simp] theorem State.setStack_readByte (k : Vector Word 16) (p : Fin 17) (c : Nat) : (s.setStack k p).readByte c = s.readByte c := rfl
@[simp] theorem State.setStack_mode (k : Vector Word 16) (p : Fin 17) : (s.setStack k p).mode = s.mode := rfl

@[simp] theorem State.takeFree_v : s.takeFree.v = s.v := rfl
@[simp] theorem State.takeFree_i : s.takeFree.i = s.i := rfl
@[simp] theorem State.takeFree_pc : s.takeFree.pc = s.pc := rfl
@[simp] theorem State.takeFree_sp : s.takeFree.sp = s.sp := rfl
@[simp] theorem State.takeFree_stack : s.takeFree.stack = s.stack := rfl
@[simp] theorem State.takeFree_mem : s.takeFree.mem = s.mem := rfl
@[simp] theorem State.takeFree_fb : s.takeFree.fb = s.fb := rfl
@[simp] theorem State.takeFree_key : s.takeFree.key = s.key := rfl
@[simp] theorem State.takeFree_dt : s.takeFree.dt = s.dt := rfl
@[simp] theorem State.takeFree_st : s.takeFree.st = s.st := rfl
@[simp] theorem State.takeFree_fbc : s.takeFree.fbc = s.fbc := rfl
@[simp] theorem State.takeFree_flt : s.takeFree.flt = s.flt := rfl
@[simp] theorem State.takeFree_initialised : s.takeFree.initialised = s.initialised := rfl
@[simp] theorem State.takeFree_freeCount : s.takeFree.freeCount = s.freeCount + 1 := rfl
@[simp] theorem State.takeFree_readReg (y : Reg) : s.takeFree.readReg y = s.readReg y := rfl
@[simp] theorem State.takeFree_readByte (c : Nat) : s.takeFree.readByte c = s.readByte c := rfl
@[simp] theorem State.takeFree_mode : s.takeFree.mode = s.mode := rfl

@[simp] theorem State.advance_v : s.advance.v = s.v := rfl
@[simp] theorem State.advance_i : s.advance.i = s.i := rfl
@[simp] theorem State.advance_pc : s.advance.pc = s.pc + 2 := rfl
@[simp] theorem State.advance_sp : s.advance.sp = s.sp := rfl
@[simp] theorem State.advance_stack : s.advance.stack = s.stack := rfl
@[simp] theorem State.advance_mem : s.advance.mem = s.mem := rfl
@[simp] theorem State.advance_fb : s.advance.fb = s.fb := rfl
@[simp] theorem State.advance_key : s.advance.key = s.key := rfl
@[simp] theorem State.advance_dt : s.advance.dt = s.dt := rfl
@[simp] theorem State.advance_st : s.advance.st = s.st := rfl
@[simp] theorem State.advance_fbc : s.advance.fbc = s.fbc := rfl
@[simp] theorem State.advance_flt : s.advance.flt = s.flt := rfl
@[simp] theorem State.advance_initialised : s.advance.initialised = s.initialised := rfl
@[simp] theorem State.advance_freeCount : s.advance.freeCount = s.freeCount := rfl
@[simp] theorem State.advance_readReg (y : Reg) : s.advance.readReg y = s.readReg y := rfl
@[simp] theorem State.advance_readByte (c : Nat) : s.advance.readByte c = s.readByte c := rfl
@[simp] theorem State.advance_mode : s.advance.mode = s.mode := rfl

@[simp] theorem State.writeByte_v (a : Nat) (b : Byte) : (s.writeByte a b).v = s.v := rfl
@[simp] theorem State.writeByte_i (a : Nat) (b : Byte) : (s.writeByte a b).i = s.i := rfl
@[simp] theorem State.writeByte_pc (a : Nat) (b : Byte) : (s.writeByte a b).pc = s.pc := rfl
@[simp] theorem State.writeByte_sp (a : Nat) (b : Byte) : (s.writeByte a b).sp = s.sp := rfl
@[simp] theorem State.writeByte_stack (a : Nat) (b : Byte) : (s.writeByte a b).stack = s.stack := rfl
@[simp] theorem State.writeByte_mem (a : Nat) (b : Byte) : (s.writeByte a b).mem = s.mem.write a b := rfl
@[simp] theorem State.writeByte_fb (a : Nat) (b : Byte) : (s.writeByte a b).fb = s.fb := rfl
@[simp] theorem State.writeByte_key (a : Nat) (b : Byte) : (s.writeByte a b).key = s.key := rfl
@[simp] theorem State.writeByte_dt (a : Nat) (b : Byte) : (s.writeByte a b).dt = s.dt := rfl
@[simp] theorem State.writeByte_st (a : Nat) (b : Byte) : (s.writeByte a b).st = s.st := rfl
@[simp] theorem State.writeByte_fbc (a : Nat) (b : Byte) : (s.writeByte a b).fbc = s.fbc := rfl
@[simp] theorem State.writeByte_flt (a : Nat) (b : Byte) : (s.writeByte a b).flt = s.flt := rfl
@[simp] theorem State.writeByte_initialised (a : Nat) (b : Byte) : (s.writeByte a b).initialised = s.initialised := rfl
@[simp] theorem State.writeByte_freeCount (a : Nat) (b : Byte) : (s.writeByte a b).freeCount = s.freeCount := rfl
@[simp] theorem State.writeByte_readReg (a : Nat) (b : Byte) (y : Reg) : (s.writeByte a b).readReg y = s.readReg y := rfl
@[simp] theorem State.writeByte_mode (a : Nat) (b : Byte) : (s.writeByte a b).mode = s.mode := rfl

/-- A register reads what was last written to it, and every other register as before. -/
theorem State.readReg_writeReg (x y : Reg) (b : Byte) :
    (s.writeReg x b).readReg y = if x = y then b else s.readReg y := by
  simp only [State.readReg, State.writeReg, Vector.getElem_set, Fin.ext_iff]

@[simp] theorem State.readReg_writeReg_same (x : Reg) (b : Byte) : (s.writeReg x b).readReg x = b := by
  simp [State.readReg_writeReg]

theorem State.readReg_writeReg_other {x y : Reg} (h : x ≠ y) (b : Byte) :
    (s.writeReg x b).readReg y = s.readReg y := by
  simp [State.readReg_writeReg, h]

@[simp] theorem State.setRegs_readReg (v : Vector Byte 16) (y : Reg) : (s.setRegs v).readReg y = v[y.val] := rfl

@[simp] theorem State.setMem_readByte (m : Memory) (a : Nat) : (s.setMem m).readByte a = m.read a := rfl

/-- The mode depends on the fault record and on whether a reset has happened, and on nothing else. -/
theorem State.mode_eq_run : s.mode = .run ↔ s.initialised = true ∧ s.flt = none := by
  unfold State.mode
  cases s.initialised <;> cases s.flt <;> simp

end

end Sys2Proof.Machine
end

