-- ==== Sys2Proof/Laws/Memory.lean ====
section
/-! SUPPORT. The laws of memory: a read after a write, the canonical form, and that equal contents in canonical form are
equal lists. -/

namespace Sys2Proof.Machine

theorem Memory.read_filter_other (m : Memory) {a c : Nat} (h : c ≠ a) :
    Memory.read (m.filter fun e => e.1 != a) c = Memory.read m c := by
  induction m with
  | nil => rfl
  | cons e m ih =>
    obtain ⟨k, b⟩ := e
    by_cases hk : k = a
    · subst hk
      simp [Memory.read, ih, Ne.symm h]
    · simp [Memory.read, ih, hk]

theorem Memory.read_of_unlisted (m : Memory) {a : Nat} (h : ∀ e ∈ m, e.1 ≠ a) : Memory.read m a = unlisted a := by
  induction m with
  | nil => rfl
  | cons e m ih =>
    obtain ⟨k, b⟩ := e
    have hk : k ≠ a := h (k, b) (by simp)
    simp only [Memory.read, hk, if_false]
    exact ih fun e he => h e (by simp [he])

theorem Memory.read_insert (m : Memory) (a c : Nat) (b : Byte) (h : ∀ e ∈ m, e.1 ≠ a) :
    Memory.read (Memory.insert a b m) c = if c = a then b else Memory.read m c := by
  induction m with
  | nil => simp [Memory.insert, Memory.read, eq_comm]
  | cons e m ih =>
    obtain ⟨k, d⟩ := e
    have hk : k ≠ a := h (k, d) (by simp)
    have ih' := ih fun e he => h e (by simp [he])
    by_cases hlt : a < k
    · by_cases hc : c = a
      · simp [Memory.insert, hlt, Memory.read, hc]
      · simp [Memory.insert, hlt, Memory.read, hc, Ne.symm hc]
    · by_cases hkc : k = c
      · subst hkc
        simp [Memory.insert, hlt, Memory.read, hk]
      · simp [Memory.insert, hlt, Memory.read, hkc, ih']

/-- A read of the written address gives the byte written, every other read what it gave before. -/
theorem Memory.read_write (m : Memory) (a c : Nat) (b : Byte) :
    (m.write a b).read c = if c = a then b else m.read c := by
  have hf : ∀ e ∈ m.filter (fun e => e.1 != a), e.1 ≠ a := by simp
  unfold Memory.write
  by_cases hb : b = unlisted a
  · by_cases hc : c = a
    · subst hc
      simp [hb, Memory.read_of_unlisted _ hf]
    · simp [hb, hc, Memory.read_filter_other m hc]
  · rw [if_neg hb, Memory.read_insert _ a c b hf]
    by_cases hc : c = a
    · simp [hc]
    · simp [hc, Memory.read_filter_other m hc]

theorem Memory.wf_cons {a : Nat} {b : Byte} {m : Memory} :
    Memory.wf ((a, b) :: m) = true ↔
      a ≤ 0xFFF ∧ b ≠ unlisted a ∧ (∀ e ∈ m, a < e.1) ∧ Memory.wf m = true := by
  simp [Memory.wf, and_assoc]

theorem Memory.wf_filter (m : Memory) (a : Nat) (h : m.wf = true) :
    Memory.wf (m.filter fun e => e.1 != a) = true := by
  induction m with
  | nil => rfl
  | cons e m ih =>
    obtain ⟨k, b⟩ := e
    obtain ⟨h1, h2, h3, h4⟩ := Memory.wf_cons.1 h
    by_cases hk : k = a
    · simpa [List.filter_cons, hk] using ih h4
    · rw [List.filter_cons_of_pos (by simp [hk])]
      exact Memory.wf_cons.2 ⟨h1, h2, fun e he => h3 e (List.mem_filter.1 he).1, ih h4⟩

theorem Memory.mem_insert {a : Nat} {b : Byte} {m : Memory} {e : Host.Cell} :
    e ∈ Memory.insert a b m ↔ e = (a, b) ∨ e ∈ m := by
  induction m with
  | nil => simp [Memory.insert]
  | cons c m ih =>
    by_cases hlt : a < c.1
    · simp [Memory.insert, hlt]
    · simp only [Memory.insert, hlt, if_false, List.mem_cons, ih]
      tauto

theorem Memory.wf_insert (m : Memory) (a : Nat) (b : Byte) (ha : a ≤ 0xFFF) (hb : b ≠ unlisted a)
    (hm : m.wf = true) (hu : ∀ e ∈ m, e.1 ≠ a) : Memory.wf (Memory.insert a b m) = true := by
  induction m with
  | nil => simp [Memory.insert, Memory.wf, ha, hb]
  | cons e m ih =>
    obtain ⟨k, d⟩ := e
    obtain ⟨h1, h2, h3, h4⟩ := Memory.wf_cons.1 hm
    have hk : k ≠ a := hu (k, d) (by simp)
    by_cases hlt : a < k
    · simp only [Memory.insert, hlt, if_true]
      refine Memory.wf_cons.2 ⟨ha, hb, fun e he => ?_, hm⟩
      rcases List.mem_cons.1 he with rfl | he
      · exact hlt
      · exact lt_trans hlt (h3 e he)
    · simp only [Memory.insert, hlt, if_false]
      refine Memory.wf_cons.2 ⟨h1, h2, fun e he => ?_, ih h4 fun e he => hu e (by simp [he])⟩
      rcases Memory.mem_insert.1 he with rfl | he
      · exact lt_of_le_of_ne (not_lt.1 hlt) hk
      · exact h3 e he

/-- Every write inside the address space keeps the canonical form. -/
theorem Memory.wf_write (m : Memory) (a : Nat) (b : Byte) (ha : a ≤ 0xFFF) (hm : m.wf = true) :
    (m.write a b).wf = true := by
  unfold Memory.write
  split
  · exact Memory.wf_filter m a hm
  · next hb => exact Memory.wf_insert _ a b ha hb (Memory.wf_filter m a hm) (by simp)

theorem Memory.read_head_of_wf {a : Nat} {m : Memory} (h : ∀ e ∈ m, a < e.1) : Memory.read m a = unlisted a :=
  Memory.read_of_unlisted m fun e he => (h e he).ne'

/-- Two memories in canonical form with the same contents are the same list. -/
theorem Memory.ext_of_wf {m n : Memory} (hm : m.wf = true) (hn : n.wf = true)
    (h : ∀ a, m.read a = n.read a) : m = n := by
  induction m generalizing n with
  | nil =>
    cases n with
    | nil => rfl
    | cons f n =>
      obtain ⟨k, d⟩ := f
      obtain ⟨-, h2, -, -⟩ := Memory.wf_cons.1 hn
      have := h k
      simp [Memory.read] at this
      exact absurd this.symm h2
  | cons e m ih =>
    obtain ⟨a, b⟩ := e
    obtain ⟨-, hb, ha, hm'⟩ := Memory.wf_cons.1 hm
    cases n with
    | nil =>
      have := h a
      simp [Memory.read] at this
      exact absurd this hb
    | cons f n =>
      obtain ⟨k, d⟩ := f
      obtain ⟨-, hd, hk, hn'⟩ := Memory.wf_cons.1 hn
      have hak : a = k := by
        rcases lt_trichotomy a k with hlt | heq | hgt
        · have := h a
          simp only [Memory.read, if_true, hlt.ne', if_false] at this
          rw [Memory.read_head_of_wf fun e he => hlt.trans (hk e he)] at this
          exact absurd this hb
        · exact heq
        · have := h k
          simp only [Memory.read, if_true, hgt.ne', if_false] at this
          rw [Memory.read_head_of_wf fun e he => hgt.trans (ha e he)] at this
          exact absurd this.symm hd
      subst hak
      have hbd : b = d := by simpa [Memory.read] using h a
      subst hbd
      rw [ih hm' hn' fun c => ?_]
      by_cases hc : a = c
      · subst hc
        rw [Memory.read_head_of_wf ha, Memory.read_head_of_wf hk]
      · simpa [Memory.read, hc] using h c

/-- A byte read after a byte was written, through the state. -/
@[simp] theorem State.readByte_writeByte (s : State) (a c : Nat) (b : Byte) :
    (s.writeByte a b).readByte c = if c = a then b else s.readByte c :=
  Memory.read_write s.mem a c b

end Sys2Proof.Machine
end

