-- ==== Sys2Proof/Laws/Ops.lean ====
section
/-! SUPPORT. One lemma per shared operation that says everything it can do. -/

namespace Sys2Proof.Machine

/-! ### Sequencing -/

@[simp] theorem andThen_next {α β : Type} (a : α) (f : α → Result β) : andThen (.next a) f = f a := rfl

@[simp] theorem andThen_fault {α β : Type} (e : Fault) (f : α → Result β) :
    andThen (.fault e : Result α) f = .fault e := rfl

@[simp] theorem andThen_refused {α β : Type} (e : Refusal) (f : α → Result β) :
    andThen (.refused e : Result α) f = .refused e := rfl

@[simp] theorem andThen_raise {α β : Type} (e : Fault) (f : α → Result β) :
    andThen (raise e : Result α) f = raise e := rfl

/-- A sequence gives a value only when both parts do. -/
theorem andThen_eq_next {α β : Type} {r : Result α} {f : α → Result β} {b : β} :
    andThen r f = .next b ↔ ∃ a, r = .next a ∧ f a = .next b := by
  cases r <;> simp [andThen]

/-- A sequence faults when its first part does, or when its second part does on what the first gave. -/
theorem andThen_eq_fault {α β : Type} {r : Result α} {f : α → Result β} {e : Fault} :
    andThen r f = .fault e ↔ r = .fault e ∨ ∃ a, r = .next a ∧ f a = .fault e := by
  cases r <;> simp [andThen]

theorem andThen_eq_refused {α β : Type} {r : Result α} {f : α → Result β} {e : Refusal} :
    andThen r f = .refused e ↔ r = .refused e ∨ ∃ a, r = .next a ∧ f a = .refused e := by
  cases r <;> simp [andThen]

/-- An operation admitted in `RUN` only does its work in that mode and is refused by name in the others. -/
theorem whenRunning_cases {α : Type} (s : State) (r : Result α) :
    (s.mode = .run ∧ whenRunning s r = r) ∨
    (s.mode = .uninit ∧ whenRunning s r = .refused .notInitialised) ∨
    (s.mode = .faulted ∧ whenRunning s r = .refused .machineFaulted) := by
  unfold whenRunning
  cases s.mode <;> simp

theorem whenRunning_eq_next {α : Type} {s : State} {r : Result α} {a : α} :
    whenRunning s r = .next a ↔ s.mode = .run ∧ r = .next a := by
  rcases whenRunning_cases s r with ⟨h, e⟩ | ⟨h, e⟩ | ⟨h, e⟩ <;> simp [h, e]

/-! ### Memory -/

/-- The three things a read can do. -/
theorem memRead_eq (op : Option Word) (a : Nat) (s : State) :
    memRead op a s = if a ≤ 0xFFF then .next (s.readByte a) else .fault (.memoryOutOfBounds op a) := rfl

theorem memWrite_eq (op : Option Word) (a : Nat) (b : Byte) (s : State) :
    memWrite op a b s = if a ≤ 0xFFF then .next (s.writeByte a b) else .fault (.memoryOutOfBounds op a) := rfl

/-- Reading `n` bytes gives them all, or faults at the first address above 0xFFF (60_exceptions.md R211). -/
theorem memReadMany_eq (op : Option Word) (a n : Nat) (s : State) :
    memReadMany op a n s =
      if n = 0 ∨ a + n ≤ 0x1000 then .next ((List.range n).map fun k => s.readByte (a + k))
      else .fault (.memoryOutOfBounds op (max a 0x1000)) := by
  induction n generalizing a with
  | zero => rfl
  | succ n ih =>
    rw [memReadMany, memRead_eq]
    by_cases ha : a ≤ 0xFFF
    · simp only [ha, if_true, andThen_next, ih]
      by_cases hn : n = 0 ∨ a + 1 + n ≤ 0x1000
      · rw [if_pos hn, if_pos (by omega)]
        simp [List.range_succ_eq_map, Function.comp_def, Nat.add_comm, Nat.add_left_comm]
      · rw [if_neg hn, if_neg (by omega)]
        simp only [andThen_fault]
        congr 2
        omega
    · simp only [ha, if_false, andThen_fault]
      rw [if_neg (by omega)]
      congr 2
      omega

/-- The state with the bytes stored from an address on. -/
def storeAll (a : Nat) : List Byte → State → State
  | [], s => s
  | b :: bs, s => storeAll (a + 1) bs (s.writeByte a b)

/-- Storing bytes stores them all, or faults at the first address above 0xFFF (60_exceptions.md R211). -/
theorem memWriteMany_eq (op : Option Word) (a : Nat) (bs : List Byte) (s : State) :
    memWriteMany op a bs s =
      if bs = [] ∨ a + bs.length ≤ 0x1000 then .next (storeAll a bs s)
      else .fault (.memoryOutOfBounds op (max a 0x1000)) := by
  induction bs generalizing a s with
  | nil => rfl
  | cons b bs ih =>
    rw [memWriteMany, memWrite_eq]
    by_cases ha : a ≤ 0xFFF
    · simp only [ha, if_true, andThen_next, ih]
      by_cases hn : bs = [] ∨ a + 1 + bs.length ≤ 0x1000
      · rw [if_pos hn, if_pos (by rcases hn with rfl | h <;> simp <;> omega)]
        rfl
      · obtain ⟨h1, h2⟩ := not_or.1 hn
        rw [if_neg hn, if_neg (by simp; omega)]
        congr 2
        omega
    · simp only [ha, if_false, andThen_fault]
      rw [if_neg (by simp; omega)]
      congr 2
      omega

/-- What memory reads as after the bytes were stored. -/
theorem storeAll_readByte (a : Nat) (bs : List Byte) (s : State) (c : Nat) :
    (storeAll a bs s).readByte c =
      if a ≤ c ∧ c < a + bs.length then bs.getD (c - a) 0 else s.readByte c := by
  induction bs generalizing a s with
  | nil =>
    rw [if_neg (by simp)]
    rfl
  | cons b bs ih =>
    rw [storeAll, ih, State.readByte_writeByte]
    rcases lt_trichotomy c a with h | h | h
    · rw [if_neg (by omega), if_neg (by omega), if_neg (by omega)]
    · subst h
      rw [if_neg (by omega), if_pos rfl, if_pos (by simp)]
      simp
    · by_cases hc : c < a + 1 + bs.length
      · rw [if_pos (by omega), if_pos (by simp; omega)]
        obtain ⟨d, rfl⟩ : ∃ d, c = a + 1 + d := ⟨c - (a + 1), by omega⟩
        simp [show a + 1 + d - a = d + 1 by omega]
      · rw [if_neg (by omega), if_neg (by omega), if_neg (by simp; omega)]

/-- Stores change memory and nothing else. -/
theorem storeAll_frame (a : Nat) (bs : List Byte) (s : State) :
    ∃ m, storeAll a bs s = s.setMem m := by
  induction bs generalizing a s with
  | nil => exact ⟨s.mem, rfl⟩
  | cons b bs ih =>
    obtain ⟨m, h⟩ := ih (a + 1) (s.writeByte a b)
    exact ⟨m, h⟩

/-- Stores inside the address space keep the canonical form. -/
theorem storeAll_wf (a : Nat) (bs : List Byte) (s : State) (h : bs = [] ∨ a + bs.length ≤ 0x1000)
    (hs : s.mem.wf = true) : (storeAll a bs s).mem.wf = true := by
  induction bs generalizing a s with
  | nil => exact hs
  | cons b bs ih =>
    have hl : a + (bs.length + 1) ≤ 0x1000 := by simpa using h
    refine ih (a + 1) (s.writeByte a b) ?_ (Memory.wf_write s.mem a b (by omega) hs)
    by_cases hb : bs = []
    · exact .inl hb
    · right
      omega

/-- Placing bytes that all lie inside the address space is storing them. -/
theorem placeBytes_eq (a : Nat) (bs : List Byte) (s : State) (h : bs = [] ∨ a + bs.length ≤ 0x1000) :
    placeBytes a bs s = storeAll a bs s := by
  induction bs generalizing a s with
  | nil => rfl
  | cons b bs ih =>
    have hl : a + (bs.length + 1) ≤ 0x1000 := by simpa using h
    rw [placeBytes, storeAll, if_pos (by omega), ih]
    by_cases hb : bs = []
    · exact .inl hb
    · right
      omega

/-- Placing bytes keeps the canonical form, wherever they are placed. -/
theorem placeBytes_wf (a : Nat) (bs : List Byte) (s : State) (hs : s.mem.wf = true) :
    (placeBytes a bs s).mem.wf = true := by
  induction bs generalizing a s with
  | nil => exact hs
  | cons b bs ih =>
    refine ih (a + 1) _ ?_
    split
    · next h => exact Memory.wf_write s.mem a b h hs
    · exact hs

/-! ### Stack -/

/-- A push stores PC in slot SP and counts it, or overflows. -/
theorem pushPc_cases (op : Word) (s : State) :
    (∃ h : s.sp.val < 16,
      pushPc op s = .next (s.setStack (s.stack.set s.sp.val s.pc) ⟨s.sp.val + 1, by omega⟩)) ∨
    (s.sp.val = 16 ∧ pushPc op s = .fault (.stackOverflow op)) := by
  unfold pushPc
  by_cases h : s.sp.val < 16
  · exact .inl ⟨h, by simp [h]⟩
  · refine .inr ⟨by omega, ?_⟩
    simp [h, raise]

/-- A pop uncounts the top slot and puts it into PC, or underflows. -/
theorem popPc_cases (op : Word) (s : State) :
    (∃ _h : s.sp.val ≠ 0, popPc op s =
      .next ((s.setStack s.stack ⟨s.sp.val - 1, by omega⟩).setPc (s.stack[s.sp.val - 1]'(by omega)))) ∨
    (s.sp.val = 0 ∧ popPc op s = .fault (.stackUnderflow op)) := by
  unfold popPc
  by_cases h : s.sp.val = 0
  · refine .inr ⟨h, ?_⟩
    simp [h, raise]
  · exact .inl ⟨h, by simp [h]⟩

/-! ### Fetch and step -/

/-- A fetch reads two bytes, or faults at the first address above 0xFFF (20_memory.md R54). -/
theorem fetch_eq (s : State) :
    fetch s = if s.pc.toNat ≤ 0xFFE
      then .next (wordOfBytes (s.readByte s.pc.toNat) (s.readByte (s.pc.toNat + 1)))
      else .fault (.memoryOutOfBounds none (max s.pc.toNat 0x1000)) := by
  unfold fetch
  rw [memRead_eq]
  by_cases h1 : s.pc.toNat ≤ 0xFFF
  · simp only [h1, if_true, andThen_next, memRead_eq]
    by_cases h2 : s.pc.toNat ≤ 0xFFE
    · rw [if_pos (by omega), if_pos h2, andThen_next]
    · rw [if_neg (by omega), if_neg h2, andThen_fault]
      congr 2
      omega
  · simp only [h1, if_false, andThen_fault]
    rw [if_neg (by omega)]
    congr 2
    omega

/-- What the fetch and decode of a step give. -/
theorem fetchInstr_cases (s : State) :
    (∃ i, s.pc.toNat ≤ 0xFFE ∧
      decodeWord (wordOfBytes (s.readByte s.pc.toNat) (s.readByte (s.pc.toNat + 1))) = some i ∧
      fetchInstr s = .next i) ∨
    (s.pc.toNat ≤ 0xFFE ∧
      decodeWord (wordOfBytes (s.readByte s.pc.toNat) (s.readByte (s.pc.toNat + 1))) = none ∧
      fetchInstr s = .fault (.unimplementedInstruction
        (wordOfBytes (s.readByte s.pc.toNat) (s.readByte (s.pc.toNat + 1))))) ∨
    (0xFFE < s.pc.toNat ∧ fetchInstr s = .fault (.memoryOutOfBounds none (max s.pc.toNat 0x1000))) := by
  unfold fetchInstr
  rw [fetch_eq]
  by_cases h : s.pc.toNat ≤ 0xFFE
  · rw [if_pos h, andThen_next]
    cases hd : decodeWord (wordOfBytes (s.readByte s.pc.toNat) (s.readByte (s.pc.toNat + 1))) with
    | some i => exact .inl ⟨i, h, rfl, rfl⟩
    | none => exact .inr (.inl ⟨h, rfl, rfl⟩)
  · rw [if_neg h, andThen_fault]
    exact .inr (.inr ⟨by omega, rfl⟩)

/-- Everything a step that gives a next state did: it ran in mode `RUN`, fetched inside memory, and executed the decoded
instruction on the state with PC advanced. -/
theorem step_eq_next {s t : State} (h : step s = .next t) :
    ∃ i, s.mode = .run ∧ s.pc.toNat ≤ 0xFFE ∧
      decodeWord (wordOfBytes (s.readByte s.pc.toNat) (s.readByte (s.pc.toNat + 1))) = some i ∧
      exec i s.advance = .next t := by
  obtain ⟨hm, h⟩ := whenRunning_eq_next.1 h
  obtain ⟨i, hi, hx⟩ := andThen_eq_next.1 h
  rcases fetchInstr_cases s with ⟨j, hp, hd, hf⟩ | ⟨-, -, hf⟩ | ⟨-, hf⟩
  · rw [hf] at hi
    cases hi
    exact ⟨i, hm, hp, hd, hx⟩
  · rw [hf] at hi
    cases hi
  · rw [hf] at hi
    cases hi

/-- PC after the fetch of an instruction that lies inside memory: no wrap. -/
theorem advance_pc_toNat {s : State} (h : s.pc.toNat ≤ 0xFFE) : s.advance.pc.toNat = s.pc.toNat + 2 := by
  simp [BitVec.toNat_add]
  omega

end Sys2Proof.Machine
end

