-- ==== Sys2Proof/Laws/Exec.lean ====
section
/-! SUPPORT. What the operand forms and the flag computations give. -/

namespace Sys2Proof.Machine

@[simp] theorem target_toNat (nnn : BitVec 12) : (target nnn).toNat = nnn.toNat := by
  unfold target
  rw [BitVec.zeroExtend_eq_setWidth, BitVec.toNat_setWidth]
  omega

@[simp] theorem zext16_toNat (b : Byte) : (zext16 b).toNat = b.toNat := by
  unfold zext16
  rw [BitVec.zeroExtend_eq_setWidth, BitVec.toNat_setWidth]
  omega

@[simp] theorem glyphAddress_toNat (b : Byte) : (glyphAddress b).toNat = b.toNat * 5 := by
  unfold glyphAddress
  rw [BitVec.toNat_ofNat]
  omega

@[simp] theorem decimalDigits_length (b : Byte) : (decimalDigits b).length = 3 := rfl

@[simp] theorem regsUpTo_length (x : Reg) (s : State) : (regsUpTo x s).length = x.val + 1 := by
  simp [regsUpTo]

/-- The bytes a bulk store stores are the registers in order. -/
theorem regsUpTo_getD (x : Reg) (s : State) (k : Reg) (h : k ≤ x) : (regsUpTo x s).getD k.val 0 = s.readReg k := by
  have hk : k.val < x.val + 1 := Nat.lt_succ_of_le h
  simp [regsUpTo, List.getD_eq_getElem?_getD, hk, State.readReg]

/-- A bulk load writes the registers the bytes reach. -/
theorem loadRegsFrom_readReg (bytes : List Byte) (s : State) (k : Reg) :
    (loadRegsFrom bytes s).readReg k = bytes.getD k.val (s.readReg k) := by
  simp [loadRegsFrom]

/-- The scan finds a held key with no held key below it, or nothing is held. -/
theorem lowestKeyFrom_cases (s : State) (k n : Nat) :
    (∃ j, lowestKeyFrom s k n = some j ∧ k ≤ j ∧ j < k + n ∧ s.keyHeld j = true ∧
      ∀ l, k ≤ l → l < j → s.keyHeld l = false) ∨
    (lowestKeyFrom s k n = none ∧ ∀ l, k ≤ l → l < k + n → s.keyHeld l = false) := by
  induction n generalizing k with
  | zero => exact .inr ⟨rfl, fun l h1 h2 => by omega⟩
  | succ n ih =>
    by_cases hk : s.keyHeld k = true
    · exact .inl ⟨k, by simp [lowestKeyFrom, hk], le_rfl, by omega, hk, fun l h1 h2 => by omega⟩
    · have hk' : s.keyHeld k = false := by simpa using hk
      rcases ih (k + 1) with ⟨j, h1, h2, h3, h4, h5⟩ | ⟨h1, h2⟩
      · refine .inl ⟨j, by simp [lowestKeyFrom, hk', h1], by omega, by omega, h4, fun l hl1 hl2 => ?_⟩
        rcases Nat.eq_or_lt_of_le hl1 with rfl | h
        · exact hk'
        · exact h5 l h hl2
      · refine .inr ⟨by simp [lowestKeyFrom, hk', h1], fun l hl1 hl2 => ?_⟩
        rcases Nat.eq_or_lt_of_le hl1 with rfl | h
        · exact hk'
        · exact h2 l h (by omega)

/-- What a flagged write leaves in each register (42_register_alu.md R143). -/
theorem writeFlagged_readReg (x : Reg) (flag result : Byte) (s : State) (y : Reg) :
    (writeFlagged x flag result s).readReg y =
      if x = y then result else if y = vf then flag else s.readReg y := by
  simp only [writeFlagged, State.readReg_writeReg, eq_comm (a := vf)]

/-- A pixel of a frame, by row and column. -/
theorem pixelOn_eq (f : Frame) (k : Nat) (h : k < 2048) :
    pixelOn f k = (f[k / 64]'(by omega)).getLsbD (k % 64) := by
  have : k / 64 < 32 := by omega
  simp [pixelOn, List.getD_eq_getElem?_getD, this]

/-- Frames with the same pixels are the same. -/
theorem frame_ext {f g : Frame} (h : ∀ k < 2048, pixelOn f k = pixelOn g k) : f = g := by
  ext r hr c hc
  have hk := h (r * 64 + c) (by omega)
  rw [pixelOn_eq _ _ (by omega), pixelOn_eq _ _ (by omega)] at hk
  simpa [show (r * 64 + c) / 64 = r by omega, show (r * 64 + c) % 64 = c by omega,
    BitVec.getLsbD_eq_getElem hc] using hk

/-- Inverting a pixel inverts that pixel and leaves every other. -/
theorem flipPixel_on (f : Frame) (k j : Nat) (hk : k < 2048) (hj : j < 2048) :
    pixelOn (flipPixel f k) j = (pixelOn f j ^^ decide (k = j)) := by
  have h1 : k / 64 < 32 := by omega
  rw [pixelOn_eq _ _ hj, pixelOn_eq _ _ hj]
  simp only [flipPixel, h1, dite_true, Vector.getElem_set]
  by_cases hr : k / 64 = j / 64
  · have : (j % 64 = k % 64) ↔ k = j := by omega
    simp [hr, this, show j % 64 < 64 by omega]
  · have : k ≠ j := fun h => hr (by rw [h])
    simp [hr, this]

/-- A toggle inverts its own pixel and leaves every other. -/
theorem togglePixel_on (k : Nat) (p : Frame × Bool) (j : Nat) (hk : k < 2048) (hj : j < 2048) :
    pixelOn (togglePixel k p).1 j = (pixelOn p.1 j ^^ decide (k = j)) := flipPixel_on p.1 k j hk hj

@[simp] theorem togglePixel_collided (k : Nat) (p : Frame × Bool) :
    (togglePixel k p).2 = (p.2 || pixelOn p.1 k) := rfl

/-- The keypad after one bit was replaced. -/
theorem keysWith_getLsbD (keys : BitVec 16) (k : Nat) (held : Bool) (j : Nat) (hk : k ≤ 15) :
    (keysWith keys k held).getLsbD j = if j = k then held else keys.getLsbD j := by
  unfold keysWith
  by_cases hj : j = k
  · subst hj
    cases held <;> simp [show j < 16 by omega]
  · have hjk : ¬ k = j := fun h => hj h.symm
    cases held with
    | true => simp [BitVec.getLsbD_twoPow, hj, hjk]
    | false =>
      by_cases h16 : j < 16
      · simp [hj, h16]
      · simp [hj, h16, BitVec.getLsbD_of_ge keys j (by omega)]

/-- A timer counts down by one and stops at zero. -/
theorem countDown_toNat (b : Byte) : (countDown b).toNat = b.toNat - 1 := by
  unfold countDown
  by_cases h : b = 0
  · simp [h]
  · have : b.toNat ≠ 0 := fun h' => h (BitVec.eq_of_toNat_eq h')
    rw [if_neg h, BitVec.toNat_sub]
    simp
    omega

/-- The machine's step is the host's `step(rnd)` with the next free value as its random byte. -/
theorem step_eq_stepWith (s : State) : step s = stepWith (Config.rnd s.freeCount) s := by
  unfold step stepWith
  congr 1
  congr 1
  funext i
  cases i <;> rfl

end Sys2Proof.Machine
end

