-- ==== Sys2Proof/Laws/Draw.lean ====
section
/-! SUPPORT. A draw is a sequence of toggles of distinct pixels (45_draw.md R171 (a)). -/

namespace Sys2Proof.Machine

/-- The pixels a sprite row toggles, from column offset `bit` on. -/
def rowPixels (vx py : Nat) (b : Byte) (bit : Nat) : Nat → List Nat
  | 0 => []
  | n + 1 =>
    if b.getLsbD (7 - bit) then pixelIndex ((vx + bit) % 64) py :: rowPixels vx py b (bit + 1) n
    else rowPixels vx py b (bit + 1) n

/-- The pixels a sprite toggles, from row `row` on. -/
def spritePixels (vx vy : Nat) : Nat → List Byte → List Nat
  | _, [] => []
  | row, b :: bs => rowPixels vx ((vy + row) % 32) b 0 8 ++ spritePixels vx vy (row + 1) bs

/-- Toggle a list of pixels one after another. -/
def toggleAll (l : List Nat) (p : Frame × Bool) : Frame × Bool := l.foldl (fun q k => togglePixel k q) p

theorem drawBits_eq (vx py : Nat) (b : Byte) (n bit : Nat) (p : Frame × Bool) :
    drawBits vx py b bit n p = toggleAll (rowPixels vx py b bit n) p := by
  induction n generalizing bit p with
  | zero => rfl
  | succ n ih =>
    rw [drawBits, rowPixels, ih]
    split <;> rfl

theorem drawRows_eq (vx vy : Nat) (bs : List Byte) (row : Nat) (p : Frame × Bool) :
    drawRows vx vy row bs p = toggleAll (spritePixels vx vy row bs) p := by
  induction bs generalizing row p with
  | nil => rfl
  | cons b bs ih =>
    rw [drawRows, ih, drawBits_eq, spritePixels]
    exact (List.foldl_append ..).symm

/-- Toggling distinct pixels inverts exactly those, and collides when one of them was on before. -/
theorem toggleAll_spec (l : List Nat) (p : Frame × Bool) (hd : l.Nodup) (hb : ∀ k ∈ l, k < 2048) :
    (∀ j < 2048, pixelOn (toggleAll l p).1 j = (pixelOn p.1 j ^^ decide (j ∈ l))) ∧
    (toggleAll l p).2 = (p.2 || l.any fun k => pixelOn p.1 k) := by
  induction l generalizing p with
  | nil => simp [toggleAll]
  | cons k l ih =>
    obtain ⟨hk, hl⟩ := List.nodup_cons.1 hd
    have hkb : k < 2048 := hb k (by simp)
    obtain ⟨h1, h2⟩ := ih (togglePixel k p) hl fun j hj => hb j (by simp [hj])
    refine ⟨fun j hj => (h1 j hj).trans ?_, h2.trans ?_⟩
    · rw [togglePixel_on k p j hkb hj]
      by_cases hjk : j = k
      · subst hjk
        simp [hk]
      · simp [hjk, Ne.symm hjk]
    · have : (l.any fun j => pixelOn (togglePixel k p).1 j) = l.any fun j => pixelOn p.1 j := by
        rw [Bool.eq_iff_iff, List.any_eq_true, List.any_eq_true]
        refine exists_congr fun j => and_congr_right fun hj => ?_
        have hjk : k ≠ j := fun h => hk (h ▸ hj)
        rw [togglePixel_on k p j hkb (hb j (by simp [hj]))]
        simp [hjk]
      simp [this, Bool.or_assoc]

theorem mem_rowPixels {vx py : Nat} {b : Byte} {n bit j : Nat} :
    j ∈ rowPixels vx py b bit n ↔
      ∃ c, bit ≤ c ∧ c < bit + n ∧ b.getLsbD (7 - c) = true ∧ j = pixelIndex ((vx + c) % 64) py := by
  induction n generalizing bit with
  | zero =>
    simp only [rowPixels, List.not_mem_nil, false_iff]
    rintro ⟨c, h1, h2, -⟩
    omega
  | succ n ih =>
    have key : (∃ c, bit ≤ c ∧ c < bit + (n + 1) ∧ b.getLsbD (7 - c) = true ∧ j = pixelIndex ((vx + c) % 64) py) ↔
        (b.getLsbD (7 - bit) = true ∧ j = pixelIndex ((vx + bit) % 64) py) ∨
        ∃ c, bit + 1 ≤ c ∧ c < bit + 1 + n ∧ b.getLsbD (7 - c) = true ∧ j = pixelIndex ((vx + c) % 64) py := by
      constructor
      · rintro ⟨c, h1, h2, h3, h4⟩
        rcases Nat.eq_or_lt_of_le h1 with rfl | h
        · exact .inl ⟨h3, h4⟩
        · exact .inr ⟨c, h, by omega, h3, h4⟩
      · rintro (⟨h3, h4⟩ | ⟨c, h1, h2, h3, h4⟩)
        · exact ⟨bit, le_rfl, by omega, h3, h4⟩
        · exact ⟨c, by omega, by omega, h3, h4⟩
    rw [key, rowPixels]
    split
    · next h => simp [ih, h]
    · next h => simp [ih, h]

theorem mem_spritePixels {vx vy : Nat} {bs : List Byte} {row j : Nat} :
    j ∈ spritePixels vx vy row bs ↔ ∃ r c, r < bs.length ∧ c < 8 ∧ (bs.getD r 0).getLsbD (7 - c) = true ∧
      j = pixelIndex ((vx + c) % 64) ((vy + (row + r)) % 32) := by
  induction bs generalizing row with
  | nil => simp [spritePixels]
  | cons b bs ih =>
    rw [spritePixels, List.mem_append, mem_rowPixels, ih]
    constructor
    · rintro (⟨c, -, h2, h3, h4⟩ | ⟨r, c, h1, h2, h3, h4⟩)
      · exact ⟨0, c, by simp, by omega, by simpa using h3, h4⟩
      · exact ⟨r + 1, c, by simpa using h1, h2, by simpa using h3, by rw [h4]; congr 2; omega⟩
    · rintro ⟨r, c, h1, h2, h3, h4⟩
      cases r with
      | zero => exact .inl ⟨c, by omega, by omega, by simpa using h3, h4⟩
      | succ r => exact .inr ⟨r, c, by simpa using h1, h2, by simpa using h3, by rw [h4]; congr 2; omega⟩

theorem nodup_rowPixels {vx py : Nat} (b : Byte) {n bit : Nat} (h : bit + n ≤ 8) :
    (rowPixels vx py b bit n).Nodup := by
  induction n generalizing bit with
  | zero => exact List.nodup_nil
  | succ n ih =>
    have := ih (bit := bit + 1) (by omega)
    rw [rowPixels]
    split
    · refine List.nodup_cons.2 ⟨fun hm => ?_, this⟩
      obtain ⟨c, h1, h2, -, h4⟩ := mem_rowPixels.1 hm
      unfold pixelIndex at h4
      omega
    · exact this

/-- Within one draw no pixel is toggled twice (45_draw.md R171 (a)). -/
theorem nodup_spritePixels {vx vy : Nat} {bs : List Byte} {row : Nat} (h : row + bs.length ≤ 32) :
    (spritePixels vx vy row bs).Nodup := by
  induction bs generalizing row with
  | nil => exact List.nodup_nil
  | cons b bs ih =>
    simp only [List.length_cons] at h
    refine List.nodup_append'.2 ⟨nodup_rowPixels b (by omega), ih (by omega), fun j h1 h2 => ?_⟩
    obtain ⟨c, -, h3, -, h4⟩ := mem_rowPixels.1 h1
    obtain ⟨r, d, h5, h6, -, h7⟩ := mem_spritePixels.1 h2
    unfold pixelIndex at h4 h7
    omega

theorem spritePixels_lt {vx vy : Nat} {bs : List Byte} {row j : Nat} (h : j ∈ spritePixels vx vy row bs) : j < 2048 := by
  obtain ⟨r, c, -, -, -, h⟩ := mem_spritePixels.1 h
  unfold pixelIndex at h
  omega

/-- Everything a draw of at most 32 rows does: it inverts the pixels of the sprite and collides when one was on. -/
theorem drawSprite_spec (vx vy : Nat) (bs : List Byte) (f : Frame) (h : bs.length ≤ 32) :
    (∀ j < 2048, pixelOn (drawSprite vx vy bs f).1 j = (pixelOn f j ^^ decide (j ∈ spritePixels vx vy 0 bs))) ∧
    (drawSprite vx vy bs f).2 = (spritePixels vx vy 0 bs).any fun k => pixelOn f k := by
  have := toggleAll_spec (spritePixels vx vy 0 bs) (f, false) (nodup_spritePixels (by omega)) fun k hk => spritePixels_lt hk
  rw [← drawRows_eq] at this
  simpa [drawSprite] using this

end Sys2Proof.Machine
end

