-- ==== Sys2Proof/Laws/Encode.lean ====
section
/-! SUPPORT. The fields of the words the encoder builds, and the words as numbers (30_encoding.md R83, R84). -/

namespace Sys2Proof

theorem nibble_toNat (x : Reg) : (nibble x).toNat = x.val := rfl

theorem append_toNat {m n : Nat} (a : BitVec m) (b : BitVec n) : (a ++ b).toNat = a.toNat * 2 ^ n + b.toNat := by
  rw [BitVec.toNat_append, ← Nat.shiftLeft_add_eq_or_of_lt b.isLt, Nat.shiftLeft_eq]

theorem encNnn_toNat (d1 : BitVec 4) (nnn : BitVec 12) : (encNnn d1 nnn).toNat = d1.toNat * 0x1000 + nnn.toNat :=
  append_toNat d1 nnn

theorem encXkk_toNat (d1 : BitVec 4) (x : Reg) (kk : Byte) :
    (encXkk d1 x kk).toNat = d1.toNat * 0x1000 + x.val * 0x100 + kk.toNat := by
  refine (append_toNat (d1 ++ nibble x) kk).trans ?_
  rw [append_toNat, nibble_toNat]
  omega

theorem encXyn_toNat (d1 : BitVec 4) (x y : Reg) (n : BitVec 4) :
    (encXyn d1 x y n).toNat = d1.toNat * 0x1000 + x.val * 0x100 + y.val * 0x10 + n.toNat := by
  refine (append_toNat (d1 ++ nibble x) (nibble y ++ n)).trans ?_
  rw [append_toNat, append_toNat, nibble_toNat, nibble_toNat]
  omega

/-! The fields of a word, as numbers. -/

theorem fieldX_val (op : Word) : (fieldX op).val = op.toNat / 256 % 16 := by
  show (op.extractLsb' 8 4).toNat = _
  simp [BitVec.extractLsb'_toNat, Nat.shiftRight_eq_div_pow]

theorem fieldY_val (op : Word) : (fieldY op).val = op.toNat / 16 % 16 := by
  show (op.extractLsb' 4 4).toNat = _
  simp [BitVec.extractLsb'_toNat, Nat.shiftRight_eq_div_pow]

theorem fieldN_toNat (op : Word) : (fieldN op).toNat = op.toNat % 16 := by
  simp [fieldN, BitVec.extractLsb'_toNat]

theorem fieldKk_toNat (op : Word) : (fieldKk op).toNat = op.toNat % 256 := by
  simp [fieldKk, BitVec.extractLsb'_toNat]

theorem fieldNnn_toNat (op : Word) : (fieldNnn op).toNat = op.toNat % 4096 := by
  simp [fieldNnn, BitVec.extractLsb'_toNat]

theorem nibble1_toNat (op : Word) : (op.extractLsb' 12 4).toNat = op.toNat / 4096 := by
  simp [BitVec.extractLsb'_toNat, Nat.shiftRight_eq_div_pow]
  omega

end Sys2Proof
end

