-- ==== Sys2Proof/Laws/PerInstr.lean ====
section
/-! SUPPORT. Per instruction: the word of an instruction selects the instruction's own row of the opcode map
(30_encoding.md R90). -/

namespace Sys2Proof.Laws.SelectsOwnRow

/-- The opcode map has a row under the instruction's mnemonic, and the instruction's word selects it. -/
def Statement (i : Instr) : Prop := ∃ r, opcodeRow? i.mnemonic = some r ∧ r.selects (encode i) = true

/-- The bits a mask of whole nibbles keeps of an `NNN` word. -/
theorem encNnn_masked (d1 : BitVec 4) (nnn : BitVec 12) : encNnn d1 nnn &&& 0xF000#16 = d1 ++ 0#12 := by
  have h : (0xF000#16 : Word) = 0xF#4 ++ 0#12 := by decide
  unfold encNnn
  rw [h, BitVec.and_append]
  congr 1
  · exact BitVec.and_allOnes
  · exact BitVec.and_zero

/-- The bits the mask F000 keeps of an `XKK` word. -/
theorem encXkk_masked (d1 : BitVec 4) (x : Reg) (kk : Byte) :
    encXkk d1 x kk &&& 0xF000#16 = (d1 ++ 0#4) ++ 0#8 := by
  have h : (0xF000#16 : Word) = (0xF#4 ++ 0#4) ++ 0#8 := by decide
  unfold encXkk
  rw [h, BitVec.and_append, BitVec.and_append]
  congr 1
  · congr 1
    · exact BitVec.and_allOnes
    · exact BitVec.and_zero
  · exact BitVec.and_zero

/-- The bits the mask F0FF keeps of an `X` word. -/
theorem encX_masked (d1 : BitVec 4) (x : Reg) (f : Byte) :
    encXkk d1 x f &&& 0xF0FF#16 = (d1 ++ 0#4) ++ f := by
  have h : (0xF0FF#16 : Word) = (0xF#4 ++ 0#4) ++ 0xFF#8 := by decide
  unfold encXkk
  rw [h, BitVec.and_append, BitVec.and_append]
  congr 1
  · congr 1
    · exact BitVec.and_allOnes
    · exact BitVec.and_zero
  · exact BitVec.and_allOnes

/-- The bits the mask F00F keeps of an `XY` word. -/
theorem encXy_masked (d1 : BitVec 4) (x y : Reg) (n : BitVec 4) :
    encXyn d1 x y n &&& 0xF00F#16 = (d1 ++ 0#4) ++ (0#4 ++ n) := by
  have h : (0xF00F#16 : Word) = (0xF#4 ++ 0#4) ++ (0#4 ++ 0xF#4) := by decide
  unfold encXyn
  rw [h, BitVec.and_append, BitVec.and_append, BitVec.and_append]
  congr 1
  · congr 1
    · exact BitVec.and_allOnes
    · exact BitVec.and_zero
  · congr 1
    · exact BitVec.and_zero
    · exact BitVec.and_allOnes

/-- The bits the mask F000 keeps of an `XYN` word. -/
theorem encXyn_masked (d1 : BitVec 4) (x y : Reg) (n : BitVec 4) :
    encXyn d1 x y n &&& 0xF000#16 = (d1 ++ 0#4) ++ (0#4 ++ 0#4) := by
  have h : (0xF000#16 : Word) = (0xF#4 ++ 0#4) ++ (0#4 ++ 0#4) := by decide
  unfold encXyn
  rw [h, BitVec.and_append, BitVec.and_append, BitVec.and_append]
  congr 1
  · congr 1
    · exact BitVec.and_allOnes
    · exact BitVec.and_zero
  · congr 1
    · exact BitVec.and_zero
    · exact BitVec.and_zero

/-- A row found under a mnemonic whose masked word is its pattern. -/
theorem of_row {i : Instr} (r : OpcodeRow) (hr : opcodeRow? i.mnemonic = some r)
    (h : encode i &&& r.mask = r.pattern) : Statement i := ⟨r, hr, by simp [OpcodeRow.selects, h]⟩

theorem nop : Statement .nop :=
  of_row ⟨"NOP", 0xFFFF, 0x0000⟩ rfl (by decide)

theorem cls : Statement .cls :=
  of_row ⟨"CLS", 0xFFFF, 0x00E0⟩ rfl (by decide)

theorem ret : Statement .ret :=
  of_row ⟨"RET", 0xFFFF, 0x00EE⟩ rfl (by decide)

theorem jp (nnn : BitVec 12) : Statement (.jp nnn) :=
  of_row ⟨"JP_nnn", 0xF000, 0x1000⟩ rfl ((encNnn_masked _ _).trans (by decide))

theorem call (nnn : BitVec 12) : Statement (.call nnn) :=
  of_row ⟨"CALL_nnn", 0xF000, 0x2000⟩ rfl ((encNnn_masked _ _).trans (by decide))

theorem seImm (x : Reg) (kk : Byte) : Statement (.seImm x kk) :=
  of_row ⟨"SE_Vx__kk", 0xF000, 0x3000⟩ rfl ((encXkk_masked _ _ _).trans (by decide))

theorem sneImm (x : Reg) (kk : Byte) : Statement (.sneImm x kk) :=
  of_row ⟨"SNE_Vx__kk", 0xF000, 0x4000⟩ rfl ((encXkk_masked _ _ _).trans (by decide))

theorem seReg (x y : Reg) : Statement (.seReg x y) :=
  of_row ⟨"SE_Vx__Vy", 0xF00F, 0x5000⟩ rfl ((encXy_masked _ _ _ _).trans (by decide))

theorem ldImm (x : Reg) (kk : Byte) : Statement (.ldImm x kk) :=
  of_row ⟨"LD_Vx__kk", 0xF000, 0x6000⟩ rfl ((encXkk_masked _ _ _).trans (by decide))

theorem addImm (x : Reg) (kk : Byte) : Statement (.addImm x kk) :=
  of_row ⟨"ADD_Vx__kk", 0xF000, 0x7000⟩ rfl ((encXkk_masked _ _ _).trans (by decide))

theorem ldReg (x y : Reg) : Statement (.ldReg x y) :=
  of_row ⟨"LD_Vx__Vy", 0xF00F, 0x8000⟩ rfl ((encXy_masked _ _ _ _).trans (by decide))

theorem orReg (x y : Reg) : Statement (.orReg x y) :=
  of_row ⟨"OR_Vx__Vy", 0xF00F, 0x8001⟩ rfl ((encXy_masked _ _ _ _).trans (by decide))

theorem andReg (x y : Reg) : Statement (.andReg x y) :=
  of_row ⟨"AND_Vx__Vy", 0xF00F, 0x8002⟩ rfl ((encXy_masked _ _ _ _).trans (by decide))

theorem xorReg (x y : Reg) : Statement (.xorReg x y) :=
  of_row ⟨"XOR_Vx__Vy", 0xF00F, 0x8003⟩ rfl ((encXy_masked _ _ _ _).trans (by decide))

theorem addReg (x y : Reg) : Statement (.addReg x y) :=
  of_row ⟨"ADD_Vx__Vy", 0xF00F, 0x8004⟩ rfl ((encXy_masked _ _ _ _).trans (by decide))

theorem subReg (x y : Reg) : Statement (.subReg x y) :=
  of_row ⟨"SUB_Vx__Vy", 0xF00F, 0x8005⟩ rfl ((encXy_masked _ _ _ _).trans (by decide))

theorem shr (x y : Reg) : Statement (.shr x y) :=
  of_row ⟨"SHR_Vx", 0xF00F, 0x8006⟩ rfl ((encXy_masked _ _ _ _).trans (by decide))

theorem subnReg (x y : Reg) : Statement (.subnReg x y) :=
  of_row ⟨"SUBN_Vx__Vy", 0xF00F, 0x8007⟩ rfl ((encXy_masked _ _ _ _).trans (by decide))

theorem shl (x y : Reg) : Statement (.shl x y) :=
  of_row ⟨"SHL_Vx", 0xF00F, 0x800E⟩ rfl ((encXy_masked _ _ _ _).trans (by decide))

theorem sneReg (x y : Reg) : Statement (.sneReg x y) :=
  of_row ⟨"SNE_Vx__Vy", 0xF00F, 0x9000⟩ rfl ((encXy_masked _ _ _ _).trans (by decide))

theorem ldI (nnn : BitVec 12) : Statement (.ldI nnn) :=
  of_row ⟨"LD_I__nnn", 0xF000, 0xA000⟩ rfl ((encNnn_masked _ _).trans (by decide))

theorem jpV0 (nnn : BitVec 12) : Statement (.jpV0 nnn) :=
  of_row ⟨"JP_V0__nnn", 0xF000, 0xB000⟩ rfl ((encNnn_masked _ _).trans (by decide))

theorem rnd (x : Reg) (kk : Byte) : Statement (.rnd x kk) :=
  of_row ⟨"RND_Vx__kk", 0xF000, 0xC000⟩ rfl ((encXkk_masked _ _ _).trans (by decide))

theorem drw (x y : Reg) (n : BitVec 4) : Statement (.drw x y n) :=
  of_row ⟨"DRW_Vx__Vy__n", 0xF000, 0xD000⟩ rfl ((encXyn_masked _ _ _ _).trans (by decide))

theorem skp (x : Reg) : Statement (.skp x) :=
  of_row ⟨"SKP_Vx", 0xF0FF, 0xE09E⟩ rfl ((encX_masked _ _ _).trans (by decide))

theorem sknp (x : Reg) : Statement (.sknp x) :=
  of_row ⟨"SKNP_Vx", 0xF0FF, 0xE0A1⟩ rfl ((encX_masked _ _ _).trans (by decide))

theorem ldVxDt (x : Reg) : Statement (.ldVxDt x) :=
  of_row ⟨"LD_Vx__DT", 0xF0FF, 0xF007⟩ rfl ((encX_masked _ _ _).trans (by decide))

theorem ldVxKey (x : Reg) : Statement (.ldVxKey x) :=
  of_row ⟨"LD_Vx__K", 0xF0FF, 0xF00A⟩ rfl ((encX_masked _ _ _).trans (by decide))

theorem ldDtVx (x : Reg) : Statement (.ldDtVx x) :=
  of_row ⟨"LD_DT__Vx", 0xF0FF, 0xF015⟩ rfl ((encX_masked _ _ _).trans (by decide))

theorem ldStVx (x : Reg) : Statement (.ldStVx x) :=
  of_row ⟨"LD_ST__Vx", 0xF0FF, 0xF018⟩ rfl ((encX_masked _ _ _).trans (by decide))

theorem addI (x : Reg) : Statement (.addI x) :=
  of_row ⟨"ADD_I__Vx", 0xF0FF, 0xF01E⟩ rfl ((encX_masked _ _ _).trans (by decide))

theorem ldGlyph (x : Reg) : Statement (.ldGlyph x) :=
  of_row ⟨"LD_F__Vx", 0xF0FF, 0xF029⟩ rfl ((encX_masked _ _ _).trans (by decide))

theorem ldBcd (x : Reg) : Statement (.ldBcd x) :=
  of_row ⟨"LD_B__Vx", 0xF0FF, 0xF033⟩ rfl ((encX_masked _ _ _).trans (by decide))

theorem storeRegs (x : Reg) : Statement (.storeRegs x) :=
  of_row ⟨"LD__I___Vx", 0xF0FF, 0xF055⟩ rfl ((encX_masked _ _ _).trans (by decide))

theorem loadRegs (x : Reg) : Statement (.loadRegs x) :=
  of_row ⟨"LD_Vx___I", 0xF0FF, 0xF065⟩ rfl ((encX_masked _ _ _).trans (by decide))

end Sys2Proof.Laws.SelectsOwnRow
end

