-- ==== Sys2Proof/Tests/Slice0.lean ====
section
/-! SUPPORT. The model's own tests. Expected results are the vectors T<n> of spec/95_test_vectors.md and the words of
30_encoding.md R90; each is one step (or one host operation) on a small state. -/

namespace Sys2Proof.Tests

open Sys2Proof Sys2Proof.Machine

/-- The part `f` of the next state, if there is one. -/
def got {α : Type} (r : Result State) (f : State → α) : Option α :=
  match r with
  | .next t => some (f t)
  | .fault _ => none
  | .refused _ => none

/-- The fault, if there is one. -/
def faultIn (r : Result State) : Option Fault :=
  match r with
  | .fault e => some e
  | .next _ => none
  | .refused _ => none

/-- The reset state with some registers written. -/
def withRegs (rs : List (Reg × Byte)) : State := rs.foldl (fun s r => s.writeReg r.1 r.2) State.reset

/-- One step of the state with the word `w` placed at PC. -/
def run1 (w : Nat) (s : State) : Result State := step (s.withFetchWord 16 w)

/-- The state with some bytes of memory written. -/
def withBytes (a : Nat) (bs : List Byte) (s : State) : State := placeBytes a bs s

/-- The frame with these pixels on. -/
def frameOf (ks : List Nat) : Frame := ks.foldl flipPixel (Vector.replicate 32 0)

/-! ### Well-formedness: an ill-formed term for each check -/

theorem test_wf_word_accepted : legalWord 0xD125 = true := by decide
theorem test_wf_word_refused : legalWord 0x5001 = false ∧ legalWord 0x00E1 = false ∧ legalWord 0xE09F = false := by decide
theorem test_wf_row_refused : OpcodeRow.wf ⟨"BAD", 0xF000, 0x1001⟩ = false := by decide
theorem test_wf_rows_of_map : Config.opcodeMap.all OpcodeRow.wf = true := by decide
theorem test_wf_key_refused : HostOp.wf (.setKey 16 true) = false ∧ HostOp.wf (.setKey 15 true) = true := by decide
theorem test_wf_image_refused (bytes : List Byte) (h : bytes.length = 3585) : HostOp.wf (.loadProgram bytes) = false := by
  simp [HostOp.wf, h]
theorem test_wf_image_accepted (bytes : List Byte) (h : bytes.length = 3584) : HostOp.wf (.loadProgram bytes) = true := by
  simp [HostOp.wf, h]
theorem test_wf_memory_refused : Memory.wf [(0x300, 1), (0x300, 2)] = false ∧ Memory.wf [(0x301, 1), (0x300, 2)] = false ∧
    Memory.wf [(0x300, 0)] = false ∧ Memory.wf [(0x1000, 1)] = false ∧ Memory.wf [(0x300, 1), (0x301, 2)] = true := by decide

/-! ### Decoding: words written out bit by bit from 30_encoding.md R90, every constructor -/

theorem test_decode_flow :
    decodeWord 0b0000000000000000 = some .nop ∧ decodeWord 0b0000000011100000 = some .cls ∧
    decodeWord 0b0000000011101110 = some .ret ∧ decodeWord 0b0001001000110100 = some (.jp 0x234) ∧
    decodeWord 0b0010101010111100 = some (.call 0xABC) ∧ decodeWord 0b1011001100000001 = some (.jpV0 0x301) := by decide

theorem test_decode_skip :
    decodeWord 0b0011000100101010 = some (.seImm 1 0x2A) ∧ decodeWord 0b0100001000001000 = some (.sneImm 2 0x08) ∧
    decodeWord 0b0101001101000000 = some (.seReg 3 4) ∧ decodeWord 0b1001000000010000 = some (.sneReg 0 1) ∧
    decodeWord 0b1110010110011110 = some (.skp 5) ∧ decodeWord 0b1110011010100001 = some (.sknp 6) := by decide

theorem test_decode_alu :
    decodeWord 0b0110000000001010 = some (.ldImm 0 0x0A) ∧ decodeWord 0b0111000111111111 = some (.addImm 1 0xFF) ∧
    decodeWord 0b1000000100100000 = some (.ldReg 1 2) ∧ decodeWord 0b1000000100100001 = some (.orReg 1 2) ∧
    decodeWord 0b1000000100100010 = some (.andReg 1 2) ∧ decodeWord 0b1000000100100011 = some (.xorReg 1 2) ∧
    decodeWord 0b1000000100100100 = some (.addReg 1 2) ∧ decodeWord 0b1000000100100101 = some (.subReg 1 2) ∧
    decodeWord 0b1000000100100110 = some (.shr 1 2) ∧ decodeWord 0b1000000100100111 = some (.subnReg 1 2) ∧
    decodeWord 0b1000000100101110 = some (.shl 1 2) ∧ decodeWord 0b1100001000001111 = some (.rnd 2 0x0F) := by decide

theorem test_decode_index_timer_draw :
    decodeWord 0b1010001001010000 = some (.ldI 0x250) ∧ decodeWord 0b1111001000011110 = some (.addI 2) ∧
    decodeWord 0b1111001100101001 = some (.ldGlyph 3) ∧ decodeWord 0b1111010000110011 = some (.ldBcd 4) ∧
    decodeWord 0b1111010101010101 = some (.storeRegs 5) ∧ decodeWord 0b1111011001100101 = some (.loadRegs 6) ∧
    decodeWord 0b1111001000000111 = some (.ldVxDt 2) ∧ decodeWord 0b1111000100001010 = some (.ldVxKey 1) ∧
    decodeWord 0b1111000100010101 = some (.ldDtVx 1) ∧ decodeWord 0b1111010000011000 = some (.ldStVx 4) ∧
    decodeWord 0b1101000100100101 = some (.drw 1 2 5) := by decide

/-- Section 2.7 of the vectors, T200 to T220: none of these is an instruction. -/
theorem test_decode_unimplemented :
    ([0x0001, 0x00E1, 0x00EF, 0x0100, 0x0FFF, 0x5001, 0x8008, 0x800D, 0x800F, 0x9008, 0xE000, 0xE09F, 0xE1A0, 0xF000,
      0xF008, 0xF016, 0xF034, 0xF056, 0xF064, 0xF0FF, 0xFFFF] : List Word).all (fun w => (decodeWord w).isNone) = true := by
  decide

/-- Bytes in memory order: the high byte comes first; one byte alone is no instruction. -/
theorem test_decode_bytes : (decode [0x61, 0x05, 0x80]).toOption = some (.ldImm 1 0x05, [0x80]) ∧
    (decode [0x61]).toOption = none ∧ decodeTableWord 16 0xA250 = some (.ldI 0x250) ∧ encodeBytes .cls = [0x00, 0xE0] := by
  decide

/-- The font has 80 bytes, and glyph A is at 0x032 (10_state.md R33). -/
theorem test_font : Config.font.length = 80 ∧ (List.range 5).map (fun k => unlisted (0x32 + k)) =
    [0xF0, 0x90, 0xF0, 0x90, 0x90] := by decide

/-! ### Fetch and flow control -/

theorem test_T1_cls : got (run1 0x00E0 { State.reset with fb := frameOf [5, 2047] }) (fun t => (t.pc, t.fbc, t.fb)) =
    some (0x202, true, frameOf []) := by decide
theorem test_T4_ret : got (run1 0x00EE { State.reset with sp := 16, stack := State.reset.stack.set 15 0xABC })
    (fun t => (t.pc, t.sp)) = some (0xABC, 15) := by decide
theorem test_T5_ret_empty : faultIn (run1 0x00EE State.reset) = some (.stackUnderflow 0x00EE) := by decide
theorem test_T9_jp_odd : got (run1 0x1201 State.reset) (·.pc) = some 0x201 := by decide
theorem test_T13_call : got (run1 0x2200 { State.reset with pc := 0xFFE }) (fun t => (t.pc, t.sp, t.stack[0])) =
    some (0x200, 1, 0x1000) := by decide
theorem test_T12_call_full : faultIn (run1 0x2300 { State.reset with pc := 0x250, sp := 16 }) =
    some (.stackOverflow 0x2300) := by decide
theorem test_T15_jpV0 : got (run1 0xB300 (withRegs [(0, 2), (3, 0x50)])) (·.pc) = some 0x302 := by decide
theorem test_T16_jpV0_beyond : got (run1 0xBFFF (withRegs [(0, 0xFF)])) (·.pc) = some 0x10FE := by decide
theorem test_T17_fetch_beyond : faultIn (step { State.reset with pc := 0x10FE }) =
    some (.memoryOutOfBounds none 0x10FE) := by decide
theorem test_T18_fetch_edge : faultIn (step { State.reset with pc := 0xFFF }) =
    some (.memoryOutOfBounds none 0x1000) := by decide
theorem test_T20_odd_pc : got (run1 0x6B07 { State.reset with pc := 0x201 }) (fun t => (t.readReg 11, t.pc)) =
    some (7, 0x203) := by decide
theorem test_T21_nop : got (run1 0x0000 { State.reset with pc := 0x204 }) id =
    some { State.reset with pc := 0x206 } := by decide

/-! ### Skips -/

theorem test_T30_se : got (run1 0x3100 { State.reset with pc := 0x208 }) (·.pc) = some 0x20C := by decide
theorem test_T31_se_not : got (run1 0x3100 { withRegs [(1, 4)] with pc := 0x208 }) (·.pc) = some 0x20A := by decide
theorem test_T33_sne : got (run1 0x4208 { withRegs [(2, 7)] with pc := 0x300 }) (·.pc) = some 0x304 := by decide
theorem test_T36_se_reg : got (run1 0x5340 { withRegs [(3, 0x55), (4, 0x54)] with pc := 0x210 }) (·.pc) =
    some 0x212 := by decide
theorem test_T38_unimplemented : faultIn (run1 0x5341 (withRegs [(3, 0x55), (4, 0x55)])) =
    some (.unimplementedInstruction 0x5341) := by decide
theorem test_T39_sne_reg : got (run1 0x9010 { withRegs [(0, 1), (1, 2)] with pc := 0x220 }) (·.pc) =
    some 0x224 := by decide
theorem test_T42_skp : got (run1 0xE59E { withRegs [(5, 0x0A)] with pc := 0x230, key := 0x0400 }) (·.pc) =
    some 0x234 := by decide
theorem test_T44_skp_bad : faultIn (run1 0xE59E { withRegs [(5, 0x10)] with key := 1 }) =
    some (.keyIndexOutOfRange 0xE59E 0x10) := by decide
theorem test_T46_sknp : got (run1 0xE5A1 { withRegs [(5, 0x0F)] with pc := 0x230 }) (·.pc) = some 0x234 := by decide
theorem test_T47_sknp_bad : faultIn (run1 0xE5A1 (withRegs [(5, 0xFF)])) =
    some (.keyIndexOutOfRange 0xE5A1 0xFF) := by decide

/-! ### Register load, arithmetic, logic, shift, random -/

theorem test_T60_ld : got (run1 0x600A State.reset) (fun t => (t.readReg 0, t.pc)) = some (0x0A, 0x202) := by decide
theorem test_T63_add_literal : got (run1 0x7201 (withRegs [(2, 0xFF)])) (fun t => (t.readReg 2, t.readReg vf)) =
    some (0, 0) := by decide
theorem test_T65_ld_reg : got (run1 0x8120 (withRegs [(2, 0x7E)])) (·.readReg 1) = some 0x7E := by decide
theorem test_T66_or : got (run1 0x8011 (withRegs [(0, 0xF0), (1, 0x0F), (15, 1)])) (fun t => (t.readReg 0, t.readReg vf)) =
    some (0xFF, 1) := by decide
theorem test_T67_and : got (run1 0x8012 (withRegs [(0, 0xF3), (1, 0x3C), (15, 1)])) (fun t => (t.readReg 0, t.readReg vf)) =
    some (0x30, 1) := by decide
theorem test_T69_xor : got (run1 0x8663 (withRegs [(6, 0xA5)])) (·.readReg 6) = some 0 := by decide
theorem test_T72_add : got (run1 0x8014 (withRegs [(0, 0xFE), (1, 1), (15, 1)])) (fun t => (t.readReg 0, t.readReg vf)) =
    some (0xFF, 0) := by decide
theorem test_T76_add_vf : got (run1 0x8F14 (withRegs [(15, 0xFF), (1, 2)])) (·.readReg vf) = some 1 := by decide
theorem test_T80_sub : got (run1 0x8015 (withRegs [(0, 7), (1, 7)])) (fun t => (t.readReg 0, t.readReg vf)) =
    some (0, 1) := by decide
theorem test_T84_sub_vf : got (run1 0x8F15 (withRegs [(15, 3), (1, 5)])) (·.readReg vf) = some 0xFE := by decide
theorem test_T85_subn : got (run1 0x8017 (withRegs [(0, 0x0A), (1, 5), (15, 1)])) (fun t => (t.readReg 0, t.readReg vf)) =
    some (0xFB, 0) := by decide
theorem test_T92_shr : got (run1 0x8346 (withRegs [(3, 4), (4, 0xFF), (15, 1)]))
    (fun t => (t.readReg 3, t.readReg 4, t.readReg vf)) = some (2, 0xFF, 0) := by decide
theorem test_T94_shr_vf : got (run1 0x8F06 (withRegs [(15, 5)])) (·.readReg vf) = some 2 := by decide
theorem test_T95_shl : got (run1 0x830E (withRegs [(3, 0x81)])) (fun t => (t.readReg 3, t.readReg vf)) =
    some (2, 1) := by decide
theorem test_T99_shl_vf : got (run1 0x8F0E (withRegs [(15, 0x81)])) (·.readReg vf) = some 2 := by decide
theorem test_T100_shr_variant : let t := shiftRight true 3 4 (withRegs [(3, 4), (4, 0xFF)])
    (t.readReg 3, t.readReg vf) = (0x7F, 1) := by decide
theorem test_T101_shl_variant : let t := shiftLeft true 3 4 (withRegs [(3, 1), (4, 0x80)])
    (t.readReg 3, t.readReg vf) = (0, 1) := by decide
theorem test_T102_rnd : got (stepWith 0xB7 (State.reset.withFetchWord 16 0xC20F)) (fun t => (t.readReg 2, t.pc)) =
    some (7, 0x202) := by decide
theorem test_T103_rnd_zero : got (stepWith 0xB7 ((withRegs [(2, 0x99)]).withFetchWord 16 0xC200)) (·.readReg 2) =
    some 0 := by decide

/-! ### Index register and memory -/

theorem test_T121_ldI : got (run1 0xA000 { State.reset with i := 0xFFFF }) (·.i) = some 0 := by decide
theorem test_T123_addI_wraps : got (run1 0xF21E { withRegs [(2, 1)] with i := 0xFFFF }) (fun t => (t.i, t.readReg vf)) =
    some (0, 0) := by decide
theorem test_T124_addI_13_bits : got (run1 0xF21E { withRegs [(2, 1)] with i := 0x0FFF }) (·.i) = some 0x1000 := by decide
theorem test_T126_glyph : got (run1 0xF029 (withRegs [(0, 0xFF)])) (·.i) = some 0x04FB := by decide
theorem test_T129_bcd : got (run1 0xF033 (withBytes 0x300 [9, 9, 9] { withRegs [(0, 7)] with i := 0x300 }))
    (fun t => (t.readByte 0x300, t.readByte 0x301, t.readByte 0x302)) = some (0, 0, 7) := by decide
theorem test_T134_bcd_edge : faultIn (run1 0xF533 { withRegs [(5, 0x63)] with i := 0x0FFE }) =
    some (.memoryOutOfBounds (some 0xF533) 0x1000) := by decide
theorem test_T138_store : got (run1 0xF255 { withRegs [(0, 0x11), (1, 0x22), (2, 0x33), (3, 0x44)] with i := 0x400 })
    (fun t => (t.readByte 0x400, t.readByte 0x401, t.readByte 0x402, t.readByte 0x403, t.i)) =
    some (0x11, 0x22, 0x33, 0, 0x400) := by decide
theorem test_T141_store_edge : faultIn (run1 0xFF55 { State.reset with i := 0x0FF1 }) =
    some (.memoryOutOfBounds (some 0xFF55) 0x1000) := by decide
theorem test_T145_load_font : got (run1 0xFF65 State.reset) (·.v.toList) =
    some [0xF0, 0x90, 0x90, 0x90, 0xF0, 0x20, 0x60, 0x20, 0x20, 0x70, 0xF0, 0x10, 0xF0, 0x80, 0xF0, 0xF0] := by decide
theorem test_T147_load_own_bytes : got (run1 0xF165 { withRegs [(2, 9)] with i := 0x200 })
    (fun t => (t.readReg 0, t.readReg 1, t.readReg 2)) = some (0xF1, 0x65, 9) := by decide

/-! ### Timers, keys, host operations -/

theorem test_T160_ld_dt : got (run1 0xF207 { State.reset with dt := 2 }) (·.readReg 2) = some 2 := by decide
theorem test_T161_set_dt : got (run1 0xF115 (withRegs [(1, 3)])) (·.dt) = some 3 := by decide
theorem test_T163_set_st : got (run1 0xF418 (withRegs [(4, 0x1E)])) (fun t => (t.st, toneActive t)) =
    some (0x1E, true) := by decide
theorem test_T164_stall : got (run1 0xF10A (withRegs [(1, 0x55)])) (fun t => (t.pc, t.readReg 1)) =
    some (0x200, 0x55) := by decide
theorem test_T165_key : got (run1 0xF10A { State.reset with key := 0x0088 }) (fun t => (t.pc, t.readReg 1)) =
    some (0x202, 3) := by decide
theorem test_T170_tick : got (perform .tickTimers { State.reset with dt := 2, st := 1 }) (fun t => (t.dt, t.st)) =
    some (1, 0) := by decide
theorem test_T172_tick_zero : got (perform .tickTimers State.reset) id = some State.reset := by decide
theorem test_T173_set_key : got (perform (.setKey 3 true) State.reset) (·.key) = some 8 := by decide
theorem test_T174_clear_key : got (perform (.setKey 3 false) { State.reset with key := 0xFFFF }) (·.key) =
    some 0xFFF7 := by decide
theorem test_T175_set_key_bad : faultIn (perform (.setKey 16 true) State.reset) = some (.hostKeyIndexOutOfRange 16) := by
  decide
theorem test_load : got (perform (.loadProgram [0xA2, 0x50]) { State.reset with key := 4 })
    (fun t => (t.pc, t.readByte 0x200, t.readByte 0x201, t.key)) = some (0x200, 0xA2, 0x50, 4) := by decide
theorem test_T177_load_too_large (bytes : List Byte) (h : bytes.length = 3585) :
    perform (.loadProgram bytes) State.reset = .fault (.programTooLarge 3585) := by
  have hu : untouched State.reset = true := by decide
  have ha : admitted (.loadProgram bytes) State.reset.mode = true := rfl
  simp [perform, ha, effect, loadProgram, hu, loadImage, raise, h]
theorem test_T179_ack : got (perform .ackFrame { State.reset with fbc := true }) (·.fbc) = some false := by decide
theorem test_T17A_reset_faulted : got (perform .reset { State.reset with flt := some (.stackUnderflow 0xEE), pc := 0x300 }) id =
    some State.reset := by decide

/-! ### Draw -/

theorem test_T180_draw_wraps : got (run1 0xD012 (withBytes 0x20C [0xC3, 0x81] { withRegs [(0, 0x3E), (1, 0x1F)] with i := 0x20C }))
    (fun t => (t.fb, t.fbc, t.readReg vf)) = some (frameOf [5, 62, 1988, 1989, 2046, 2047], true, 0) := by decide
theorem test_T182_draw_collides : got (run1 0xD011 (withBytes 0x300 [0xF0] { State.reset with i := 0x300, fb := frameOf [1, 4] }))
    (fun t => (t.fb, t.readReg vf)) = some (frameOf [0, 2, 3, 4], 1) := by decide
theorem test_T185_draw_empty : got (run1 0xD010 { withRegs [(15, 1)] with i := 0x1234 }) (fun t => (t.fb, t.fbc, t.readReg vf)) =
    some (frameOf [], true, 0) := by decide
theorem test_T189_draw_edge : faultIn (run1 0xD012 (withBytes 0xFFF [0x80] { State.reset with i := 0xFFF })) =
    some (.memoryOutOfBounds (some 0xD012) 0x1000) := by decide
theorem test_T190_draw_old_vf : got (run1 0xDF11 (withBytes 0x300 [0x80] { withRegs [(15, 2), (1, 1)] with i := 0x300 }))
    (fun t => (t.fb, t.readReg vf)) = some (frameOf [66], 0) := by decide

/-! ### Witnesses: for each statement with hypotheses, states and operands that meet them all, at the boundaries -/

/-- The reset state with PC at `pc` and the word `w` stored there. -/
def placed (pc w : Nat) : State := { State.reset with pc := BitVec.ofNat 16 pc }.withFetchWord 16 w

/-- A machine before its first reset. -/
def beforeReset : State := { State.reset with initialised := false }

/-- A machine in mode `FAULTED`. -/
def inFault : State := { State.reset with flt := some (.stackUnderflow 0x00EE) }

/-- Whether the result is a next state. -/
def goesOn (r : Result State) : Bool := (got r id).isSome

/-- `About`, decided. -/
def aboutB (s : State) (i : Instr) : Bool :=
  decide (s.mode = .run) && decide (s.pc.toNat ≤ 0xFFE) && decide (decodeWord (wordAtPc s) = some i)

theorem about_of_aboutB {s : State} {i : Instr} (h : aboutB s i = true) : About s i := by
  simp only [aboutB, Bool.and_eq_true, decide_eq_true_eq] at h
  exact ⟨h.1.1, h.1.2, h.2⟩

theorem exists_next_of_goesOn {r : Result State} (h : goesOn r = true) : ∃ t, r = .next t := by
  cases r with
  | next t => exact ⟨t, rfl⟩
  | fault e => cases h
  | refused e => cases h

theorem test_witness_EncodeOfDecodeIsIdentity : decodeWord 0xFF65 = some (.loadRegs 15) := by decide

theorem test_witness_FetchReadsTwoBytesOrFaults :
    (placed 0xFFE 0x0001).pc.toNat ≤ 0xFFE ∧ (placed 0xFFF 0).pc.toNat = 0xFFF ∧ (placed 0x1000 0).pc.toNat > 0xFFF ∧
    (placed 0xFFFF 0).pc.toNat > 0xFFF := by decide

theorem test_witness_StepRunsDecodedInstruction : About (placed 0xFFE 0x6005) (.ldImm 0 5) ∧ About (placed 0 0xFF65) (.loadRegs 15) :=
  ⟨about_of_aboutB (by decide), about_of_aboutB (by decide)⟩

theorem test_witness_UnimplementedWordFaults :
    (placed 0xFFE 0xF10B).mode = .run ∧ (placed 0xFFE 0xF10B).pc.toNat ≤ 0xFFE ∧
    legalWord (wordAtPc (placed 0xFFE 0xF10B)) = false ∧
    (0x0FFF : Word).toNat < 0x1000 ∧ (0x0FFF : Word) ≠ 0x0000 ∧ (0x0FFF : Word) ≠ 0x00E0 ∧ (0x0FFF : Word) ≠ 0x00EE := by
  decide

/-- One faulting step for each phase: fetch at both edges, decode, execute. -/
theorem test_witness_StepFaultsInOrder :
    (placed 0xFFE 0x00EE).mode = .run ∧
    faultIn (step (placed 0xFFF 0)) = some (.memoryOutOfBounds none 0x1000) ∧
    faultIn (step (placed 0x1001 0)) = some (.memoryOutOfBounds none 0x1001) ∧
    faultIn (step (placed 0xFFE 0x5341)) = some (.unimplementedInstruction 0x5341) ∧
    faultIn (step (placed 0xFFE 0x00EE)) = some (.stackUnderflow 0x00EE) ∧
    goesOn (step (placed 0xFFE 0x00E0)) = true := by decide

/-- `faultOf` on each side of each boundary. -/
theorem test_witness_InstructionFaultsExactlyWhen :
    ((faultOf .ret State.reset).isSome && (faultOf .ret { State.reset with sp := 1 }).isNone &&
      (faultOf (.call 0) { State.reset with sp := 16 }).isSome && (faultOf (.call 0) { State.reset with sp := 15 }).isNone &&
      (faultOf (.skp 0) (withRegs [(0, 16)])).isSome && (faultOf (.sknp 0) (withRegs [(0, 15)])).isNone &&
      (faultOf (.drw 0 0 1) { State.reset with i := 0x1000 }).isSome &&
      (faultOf (.drw 0 0 1) { State.reset with i := 0xFFF }).isNone &&
      (faultOf (.drw 0 0 0) { State.reset with i := 0xFFFF }).isNone &&
      (faultOf (.ldBcd 0) { State.reset with i := 0xFFE }).isSome &&
      (faultOf (.ldBcd 0) { State.reset with i := 0xFFD }).isNone &&
      (faultOf (.storeRegs 15) { State.reset with i := 0xFF1 }).isSome &&
      (faultOf (.loadRegs 15) { State.reset with i := 0xFF0 }).isNone) = true := by decide

theorem inv_placed : Inv (placed 0xFFE 0x3000) ∧ Inv (withRegs [(0, 0xFF)]) := by
  refine ⟨⟨?_, ?_, ?_⟩, ⟨?_, ?_, ?_⟩⟩ <;> decide

theorem test_witness_ProgramCounterAfterStep : About (placed 0xFFE 0x3000) (.seImm 0 0) ∧
    (∃ t, step (placed 0xFFE 0x3000) = .next t) ∧ Inv (placed 0xFFE 0x3000) :=
  ⟨about_of_aboutB (by decide), exists_next_of_goesOn (by decide), inv_placed.1⟩

theorem test_witness_InstructionFrame : ∃ t, exec (.storeRegs 15) { State.reset with i := 0xFF0 } = .next t :=
  exists_next_of_goesOn (by decide)

/-- Steps that change a timer. -/
theorem test_witness_StepLeavesKeysAndTimers :
    got (step ((withRegs [(1, 3)]).withFetchWord 16 0xF115)) (fun t => decide (t.dt ≠ State.reset.dt)) = some true ∧
    got (step ((withRegs [(1, 3)]).withFetchWord 16 0xF118)) (fun t => decide (t.st ≠ State.reset.st)) = some true := by
  decide

theorem test_witness_FlagRegisterWriters : (∃ t, exec (.addReg 14 15) State.reset = .next t) ∧ (14 : Reg) ≠ vf ∧
    (∃ t, exec (.orReg 14 15) State.reset = .next t) ∧ vf ∉ (writes (.orReg 14 15) State.reset).regs ∧
    (∃ t, exec (.drw 15 15 1) State.reset = .next t) :=
  ⟨exists_next_of_goesOn (by decide), by decide, exists_next_of_goesOn (by decide), by decide,
    exists_next_of_goesOn (by decide)⟩

theorem test_witness_ReturnPopsStack : State.reset.sp.val = 0 ∧ { State.reset with sp := 1 }.sp.val = (0 : Fin 16).val + 1 ∧
    { State.reset with sp := 16 }.sp.val = (15 : Fin 16).val + 1 := by decide

theorem test_witness_Jump : About (placed 0xFFE 0x1FFE) (.jp 0xFFE) ∧
    (placed 0xFFE 0x1FFE).pc.toNat = (0xFFE : BitVec 12).toNat := ⟨about_of_aboutB (by decide), by decide⟩

theorem test_witness_CallPushesReturnAddress : { State.reset with sp := 16 }.sp.val = 16 ∧
    State.reset.sp.val = (0 : Fin 16).val ∧ { State.reset with sp := 15 }.sp.val = (15 : Fin 16).val ∧
    (14 : Fin 16) ≠ 15 := by decide

/-- A call at 0xFFE to a return at 0x300, with one free slot. -/
def callState : State := withBytes 0x300 [0x00, 0xEE] { placed 0xFFE 0x2300 with sp := 15 }

theorem test_witness_CallThenReturn : About callState (.call 0x300) ∧ callState.sp.val < 16 ∧
    (0x300 : BitVec 12).toNat ≤ 0xFFE ∧ decodeWord (wordAtPc (callState.setPc (target 0x300))) = some .ret :=
  ⟨about_of_aboutB (by decide), by decide, by decide, by decide⟩

theorem test_witness_SkipOnKey : ((withRegs [(5, 16)]).readReg 5).toNat > 15 ∧ ((withRegs [(5, 255)]).readReg 5).toNat > 15 ∧
    ((withRegs [(5, 15)]).readReg 5).toNat ≤ 15 ∧ (State.reset.readReg 5).toNat ≤ 15 := by decide

theorem test_witness_BitwiseLogic : 0 < 8 ∧ 7 < 8 := by decide
theorem test_witness_AddRegisters : (14 : Reg) ≠ vf := by decide
theorem test_witness_SubtractRegisters : (0 : Reg) ≠ vf := by decide
theorem test_witness_ReverseSubtractRegisters : (14 : Reg) ≠ vf := by decide
theorem test_witness_ShiftRightOne : (14 : Reg) ≠ vf := by decide
theorem test_witness_ShiftLeftOne : (0 : Reg) ≠ vf := by decide
theorem test_witness_FlagWritersIntoVf : (14 : Reg) ≠ vf := by decide
theorem test_witness_ShiftVariant : (3 : Reg) ≠ vf := by decide

theorem test_witness_RandomByteReadOnlyByRnd : (∀ x kk, decodeWord (wordAtPc State.reset) ≠ some (.rnd x kk)) ∧
    About (placed 0xFFE 0xCFFF) (.rnd 15 0xFF) := by
  refine ⟨fun x kk h => ?_, about_of_aboutB (by decide)⟩
  have hn : decodeWord (wordAtPc State.reset) = some .nop := by decide
  simp [hn] at h

theorem test_witness_StoreDecimalDigits : { State.reset with i := 0xFFD }.i.toNat + 2 ≤ 0xFFF ∧
    { State.reset with i := 0xFFE }.i.toNat + 2 > 0xFFF ∧ { State.reset with i := 0xFFFF }.i.toNat + 2 > 0xFFF := by decide

theorem test_witness_StoreRegisters : { State.reset with i := 0xFF0 }.i.toNat + (15 : Reg).val ≤ 0xFFF ∧
    (0 : Reg) ≤ 15 ∧ (15 : Reg) ≤ 15 ∧ { State.reset with i := 0xFF1 }.i.toNat + (15 : Reg).val > 0xFFF ∧
    { State.reset with i := 0x1000 }.i.toNat + (0 : Reg).val > 0xFFF := by decide

theorem test_witness_LoadRegisters : { State.reset with i := 0xFFF }.i.toNat + (0 : Reg).val ≤ 0xFFF ∧
    { State.reset with i := 0xFF0 }.i.toNat + (15 : Reg).val ≤ 0xFFF ∧
    { State.reset with i := 0xFF1 }.i.toNat + (15 : Reg).val > 0xFFF := by decide

theorem test_witness_StoredCodeIsFetched : About { placed 0xFFE 0xF155 with i := 0xFFE } (.storeRegs 1) ∧
    1 ≤ (1 : Reg).val ∧ { placed 0xFFE 0xF155 with i := 0xFFE }.i.toNat + (1 : Reg).val ≤ 0xFFF :=
  ⟨about_of_aboutB (by decide), by decide, by decide⟩

theorem test_witness_BlockingKeyRead :
    ({ State.reset with key := 0x8000 }.keyHeld 15 = true ∧ ∀ j < 15, { State.reset with key := 0x8000 }.keyHeld j = false) ∧
    { State.reset with key := 0xFFFF }.keyHeld 0 = true ∧
    (∀ k < 16, (placed 0xFFE 0xF10A).keyHeld k = false) ∧ About (placed 0xFFE 0xF10A) (.ldVxKey 1) :=
  ⟨by decide, by decide, by decide, about_of_aboutB (by decide)⟩

/-- A one-row sprite at the last address, and a pixel it covers on. -/
def spriteOnPixel : State := withBytes 0xFFF [0x80] { State.reset with i := 0xFFF, fb := frameOf [0] }

theorem test_witness_DrawSprite :
    spriteOnPixel.i.toNat + (1 : BitVec 4).toNat - 1 ≤ 0xFFF ∧ spriteCovers 0 1 1 spriteOnPixel 0 = true ∧
    pixelOn spriteOnPixel.fb 0 = true ∧
    (0 : BitVec 4).toNat = 0 ∧ { State.reset with i := 0xFF1 }.i.toNat + (15 : BitVec 4).toNat - 1 ≤ 0xFFF ∧
    (1 : BitVec 4).toNat ≥ 1 ∧ { State.reset with i := 0x1000 }.i.toNat + (1 : BitVec 4).toNat - 1 > 0xFFF ∧
    { State.reset with i := 0xFF2 }.i.toNat + (15 : BitVec 4).toNat - 1 > 0xFFF := by decide

theorem test_witness_DrawSprite_no_collision :
    ∀ k < 2048, spriteCovers 0 1 0 { State.reset with i := 0xFFFF } k = true →
      pixelOn { State.reset with i := 0xFFFF }.fb k = false := by
  intro k _ h
  simp [spriteCovers] at h

theorem test_witness_DrawTwiceRestores : (0 : Reg) ≠ vf ∧ (14 : Reg) ≠ vf ∧ (0 : BitVec 4).toNat = 0 ∧
    { State.reset with i := 0xFFF }.i.toNat + (1 : BitVec 4).toNat - 1 ≤ 0xFFF := by decide

theorem test_witness_NoOperation : decodeWord 0x0000 = some .nop ∧ About State.reset .nop ∧ About (placed 0xFFE 0) .nop :=
  ⟨by decide, about_of_aboutB (by decide), about_of_aboutB (by decide)⟩

theorem test_witness_ResetState : (HostOp.reset = .reset ∨ HostOp.reset = .construct) ∧
    (HostOp.construct = .reset ∨ HostOp.construct = .construct) := by decide

theorem test_witness_TimerTick : { State.reset with dt := 1, st := 255 }.mode = .run ∧ State.reset.mode = .run := by decide

theorem test_witness_ToneLevel : ∃ t, perform .reset inFault = .next t := exists_next_of_goesOn (by decide)

theorem test_witness_SetKeyAndAcknowledge : State.reset.mode = .run ∧ 16 > 15 ∧ 15 ≤ 15 := by decide

theorem test_witness_LoadProgram : State.reset.mode = .run ∧ untouched { State.reset with key := 0xFFFF } = true ∧
    untouched { State.reset with dt := 1 } = false ∧ untouched { State.reset with pc := 0x202 } = false ∧
    (List.replicate 3585 (0 : Byte)).length > 3584 ∧ (List.replicate 3584 (0 : Byte)).length ≤ 3584 := by
  exact ⟨by decide, by decide, by decide, by decide, by rw [List.length_replicate]; decide, by rw [List.length_replicate]⟩

theorem test_witness_Observations : State.reset.mode = .run := by decide

/-- In every mode; in `RUN`, a load after the PC has moved. -/
theorem test_witness_RefusedOperations : beforeReset.mode = .uninit ∧ inFault.mode = .faulted ∧ State.reset.mode = .run ∧
    HostOp.tickTimers ≠ .construct ∧ HostOp.tickTimers ≠ .reset ∧ HostOp.tickTimers ≠ .framebuffer ∧
    HostOp.tickTimers ≠ .soundActive ∧
    perform (.loadProgram [1]) { State.reset with pc := 0x202 } = .refused .loadOnUsedMachine :=
  ⟨by decide, by decide, by decide, by decide, by decide, by decide, by decide, rfl⟩

theorem test_witness_FaultIsLatched : perform (.setKey 16 true) State.reset = .fault (.hostKeyIndexOutOfRange 16) ∧
    HostOp.framebuffer ≠ .reset ∧ HostOp.framebuffer ≠ .construct ∧
    afterOp .framebuffer (latch (.hostKeyIndexOutOfRange 16) State.reset) = some (latch (.hostKeyIndexOutOfRange 16) State.reset) :=
  ⟨rfl, by decide, by decide, rfl⟩

theorem test_witness_StepModes : beforeReset.mode = .uninit ∧ inFault.mode = .faulted ∧ State.reset.mode = .run := by decide

theorem test_witness_BootOrder : (List.replicate 3584 (0 : Byte)).length ≤ 3584 ∧ ([] : List Byte).length ≤ 3584 := by
  rw [List.length_replicate]
  decide

theorem test_witness_StepKeepsInvariant : Inv (placed 0xFFE 0x3000) ∧ ∃ t, step (placed 0xFFE 0x3000) = .next t :=
  ⟨inv_placed.1, exists_next_of_goesOn (by decide)⟩

theorem test_witness_HostOperationKeepsInvariant : RunInv (placed 0xFFE 0x3000) ∧
    (∃ t, afterOp (.step 0) (placed 0xFFE 0x3000) = some t) ∧ (∃ t, afterOp (.setKey 16 true) State.reset = some t) := by
  refine ⟨fun _ => inv_placed.1, ?_, ⟨_, rfl⟩⟩
  obtain ⟨t, ht⟩ := exists_next_of_goesOn (r := perform (.step 0) (placed 0xFFE 0x3000)) (by decide)
  exact ⟨t, by unfold afterOp; rw [ht]⟩

end Sys2Proof.Tests
end

/-! PROOF. Frames: one rule per operation of the state, then the frame of all 35 instructions (00_scope.md R10). -/

namespace Sys2Proof.Machine

/-! ### Frames compose -/

theorem OnlyChanges.refl (w : Footprint) (s : State) : OnlyChanges w s s := by
  simp [OnlyChanges]

/-- Two transitions inside one footprint are a transition inside it. -/
theorem OnlyChanges.trans {w : Footprint} {s t u : State} (hst : OnlyChanges w s t) (htu : OnlyChanges w t u) :
    OnlyChanges w s u := by
  obtain ⟨v, m, i, pc, stack, fb, key, dt, st, fbc, free, flt, ini⟩ := hst
  obtain ⟨v', m', i', pc', stack', fb', key', dt', st', fbc', free', flt', ini'⟩ := htu
  exact ⟨fun x h => (v' x h).trans (v x h), fun a h => (m' a h).trans (m a h), fun h => (i' h).trans (i h),
    fun h => (pc' h).trans (pc h),
    fun h => ⟨(stack' h).1.trans (stack h).1, (stack' h).2.trans (stack h).2⟩,
    fun h => (fb' h).trans (fb h), fun h => (key' h).trans (key h), fun h => (dt' h).trans (dt h),
    fun h => (st' h).trans (st h), fun h => (fbc' h).trans (fbc h), fun h => (free' h).trans (free h),
    flt'.trans flt, ini'.trans ini⟩

/-- The frame of an operation that always gives a next state is that of the state it gives. -/
theorem OnlyChanges.of_next {w : Footprint} {s t u : State} (h : (.next u : Result State) = .next t)
    (hu : OnlyChanges w s u) : OnlyChanges w s t := by
  cases h
  exact hu

/-! ### The frame of each update: it stays inside every footprint that names what it writes -/

section
variable {w : Footprint} (s : State)

theorem State.writeReg_onlyChanges {x : Reg} (hx : x ∈ w.regs) (b : Byte) : OnlyChanges w s (s.writeReg x b) := by
  have other : ∀ y, y ∉ w.regs → (s.writeReg x b).readReg y = s.readReg y := fun y hy =>
    s.readReg_writeReg_other (ne_of_mem_of_not_mem hx hy) b
  simpa [OnlyChanges] using other

theorem State.setI_onlyChanges (h : Elem.i ∈ w.elems) (a : Word) : OnlyChanges w s (s.setI a) := by
  simp [OnlyChanges, h]

theorem State.setPc_onlyChanges (h : Elem.pc ∈ w.elems) (a : Word) : OnlyChanges w s (s.setPc a) := by
  simp [OnlyChanges, h]

theorem State.setDt_onlyChanges (h : Elem.dt ∈ w.elems) (b : Byte) : OnlyChanges w s (s.setDt b) := by
  simp [OnlyChanges, h]

theorem State.setSt_onlyChanges (h : Elem.st ∈ w.elems) (b : Byte) : OnlyChanges w s (s.setSt b) := by
  simp [OnlyChanges, h]

theorem State.setFb_onlyChanges (h : Elem.fb ∈ w.elems) (f : Frame) : OnlyChanges w s (s.setFb f) := by
  simp [OnlyChanges, h]

theorem State.setFbc_onlyChanges (h : Elem.fbc ∈ w.elems) (b : Bool) : OnlyChanges w s (s.setFbc b) := by
  simp [OnlyChanges, h]

theorem State.setStack_onlyChanges (h : Elem.stack ∈ w.elems) (stack : Vector Word 16) (sp : Fin 17) :
    OnlyChanges w s (s.setStack stack sp) := by
  simp [OnlyChanges, h]

theorem State.takeFree_onlyChanges (h : Elem.free ∈ w.elems) : OnlyChanges w s s.takeFree := by
  simp [OnlyChanges, h]

theorem State.writeByte_onlyChanges {a : Nat} (ha : a ∈ w.bytes) (b : Byte) :
    OnlyChanges w s (s.writeByte a b) := by
  have other : ∀ c, c ∉ w.bytes → (s.writeByte a b).readByte c = s.readByte c := fun c hc => by
    rw [State.readByte_writeByte, if_neg (ne_of_mem_of_not_mem ha hc).symm]
  simpa [OnlyChanges] using other

/-! ### The frame of each shared operation -/

theorem writeFlagged_onlyChanges {x : Reg} (hx : x ∈ w.regs) (hf : vf ∈ w.regs) (flag result : Byte) :
    OnlyChanges w s (writeFlagged x flag result s) :=
  (s.writeReg_onlyChanges hf flag).trans (State.writeReg_onlyChanges _ hx result)

theorem skipIf_onlyChanges (h : Elem.pc ∈ w.elems) (cond : Bool) : OnlyChanges w s (skipIf cond s) := by
  cases cond with
  | true => exact s.setPc_onlyChanges h _
  | false => exact .refl w s

theorem clearScreen_onlyChanges (hfb : Elem.fb ∈ w.elems) (hfbc : Elem.fbc ∈ w.elems) (marksChanged : Bool) :
    OnlyChanges w s (clearScreen marksChanged s) :=
  (s.setFb_onlyChanges hfb _).trans (State.setFbc_onlyChanges _ hfbc _)

theorem showSprite_onlyChanges (hf : vf ∈ w.regs) (hfb : Elem.fb ∈ w.elems) (hfbc : Elem.fbc ∈ w.elems)
    (x y : Reg) (sprite : List Byte) : OnlyChanges w s (showSprite x y sprite s) :=
  ((s.setFb_onlyChanges hfb _).trans (State.writeReg_onlyChanges _ hf _)).trans (State.setFbc_onlyChanges _ hfbc _)

/-- A bulk load leaves the registers that the bytes do not reach. -/
theorem loadRegsFrom_onlyChanges {bytes : List Byte} (h : ∀ k : Reg, k.val < bytes.length → k ∈ w.regs) :
    OnlyChanges w s (loadRegsFrom bytes s) := by
  have above : ∀ k : Reg, k ∉ w.regs → (loadRegsFrom bytes s).readReg k = s.readReg k := fun k hk => by
    rw [loadRegsFrom_readReg]
    exact List.getD_eq_default _ _ (not_lt.1 (mt (h k) hk))
  exact ⟨above, by simp [loadRegsFrom]⟩

end

theorem storeAll_onlyChanges {w : Footprint} (a : Nat) (bs : List Byte) (s : State)
    (h : ∀ k < bs.length, a + k ∈ w.bytes) : OnlyChanges w s (storeAll a bs s) := by
  induction bs generalizing a s with
  | nil => exact .refl w s
  | cons b bs ih =>
    have head : a ∈ w.bytes := h 0 (by simp)
    have rest : ∀ k < bs.length, a + 1 + k ∈ w.bytes := fun k hk => by
      simpa [Nat.add_assoc, Nat.add_comm 1 k] using h (k + 1) (by simpa using hk)
    exact (s.writeByte_onlyChanges head b).trans (ih (a + 1) _ rest)

/-! ### The frame of each operation that can fault -/

section
variable {w : Footprint} {op : Option Word} {a : Nat} {s t : State}

theorem memWriteMany_onlyChanges {bs : List Byte} (h : memWriteMany op a bs s = .next t)
    (hb : ∀ k < bs.length, a + k ∈ w.bytes) : OnlyChanges w s t := by
  rw [memWriteMany_eq] at h
  split at h
  · exact .of_next h (storeAll_onlyChanges a bs s hb)
  · cases h

theorem memReadMany_length {n : Nat} {bs : List Byte} (h : memReadMany op a n s = .next bs) : bs.length = n := by
  rw [memReadMany_eq] at h
  split at h
  · cases h
    simp
  · cases h

theorem pushPc_onlyChanges {op : Word} (h : pushPc op s = .next t) (hw : Elem.stack ∈ w.elems) :
    OnlyChanges w s t := by
  rcases pushPc_cases op s with ⟨_, hp⟩ | ⟨-, hp⟩
  · exact .of_next (hp.symm.trans h) (s.setStack_onlyChanges hw _ _)
  · cases hp.symm.trans h

theorem popPc_onlyChanges {op : Word} (h : popPc op s = .next t) (hw : Elem.stack ∈ w.elems)
    (hpc : Elem.pc ∈ w.elems) : OnlyChanges w s t := by
  rcases popPc_cases op s with ⟨_, hp⟩ | ⟨-, hp⟩
  · exact .of_next (hp.symm.trans h) ((s.setStack_onlyChanges hw _ _).trans (State.setPc_onlyChanges _ hpc _))
  · cases hp.symm.trans h

theorem skipOnKey_onlyChanges {op : Word} {x : Reg} {wanted : Bool} (h : skipOnKey op x wanted s = .next t)
    (hpc : Elem.pc ∈ w.elems) : OnlyChanges w s t := by
  unfold skipOnKey at h
  split at h
  · cases h
  · exact .of_next h (skipIf_onlyChanges s hpc _)

theorem execLdVxKey_onlyChanges {x : Reg} (h : execLdVxKey x s = .next t) (hx : x ∈ w.regs)
    (hpc : Elem.pc ∈ w.elems) : OnlyChanges w s t := by
  unfold execLdVxKey at h
  split at h
  · exact .of_next h (s.writeReg_onlyChanges hx _)
  · exact .of_next h (s.setPc_onlyChanges hpc _)

end

/-! ### The frame of every instruction -/

theorem exec_onlyChanges {i : Instr} {s t : State} (h : exec i s = .next t) : OnlyChanges (writes i s) s t := by
  cases i with
  | nop => exact .of_next h (.refl _ s)
  | cls => exact .of_next h (clearScreen_onlyChanges s (by simp [writes]) (by simp [writes]) _)
  | ret => exact popPc_onlyChanges h (by simp [writes]) (by simp [writes])
  | jp | jpV0 => exact .of_next h (s.setPc_onlyChanges (by simp [writes]) _)
  | call =>
    obtain ⟨pushed, hp, hj⟩ := andThen_eq_next.1 h
    exact (pushPc_onlyChanges hp (by simp [writes])).trans
      (.of_next hj (pushed.setPc_onlyChanges (by simp [writes]) _))
  | seImm | sneImm | seReg | sneReg => exact .of_next h (skipIf_onlyChanges s (by simp [writes]) _)
  | skp | sknp => exact skipOnKey_onlyChanges h (by simp [writes])
  | ldImm | addImm | ldReg | orReg | andReg | xorReg | ldVxDt =>
    exact .of_next h (s.writeReg_onlyChanges (by simp [writes]) _)
  | addReg | subReg | subnReg | shr | shl =>
    exact .of_next h (writeFlagged_onlyChanges s (by simp [writes]) (by simp [writes]) _ _)
  | rnd =>
    exact .of_next h ((s.writeReg_onlyChanges (by simp [writes]) _).trans
      (State.takeFree_onlyChanges _ (by simp [writes])))
  | ldI | addI | ldGlyph => exact .of_next h (s.setI_onlyChanges (by simp [writes]) _)
  | ldDtVx => exact .of_next h (s.setDt_onlyChanges (by simp [writes]) _)
  | ldStVx => exact .of_next h (s.setSt_onlyChanges (by simp [writes]) _)
  | ldVxKey => exact execLdVxKey_onlyChanges h (by simp [writes]) (by simp [writes])
  | ldBcd =>
    refine memWriteMany_onlyChanges h fun k hk => ?_
    have : k < 3 := hk
    simp only [writes, List.mem_cons, List.not_mem_nil, or_false]
    omega
  | storeRegs x =>
    refine memWriteMany_onlyChanges h fun k hk => List.mem_map_of_mem ?_
    rwa [List.mem_range, ← regsUpTo_length x s]
  | loadRegs x =>
    obtain ⟨bytes, hr, hl⟩ := andThen_eq_next.1 h
    refine .of_next hl (loadRegsFrom_onlyChanges s fun k hk => ?_)
    rw [memReadMany_length hr] at hk
    simpa [writes] using Fin.le_def.2 (Nat.lt_succ_iff.1 hk)
  | drw =>
    obtain ⟨sprite, -, hd⟩ := andThen_eq_next.1 h
    exact .of_next hd (showSprite_onlyChanges s (by simp [writes]) (by simp [writes]) (by simp [writes]) _ _ sprite)

/-- Settles O13, by the frame of each instruction's meaning, which is made of the frames of the updates it performs. -/
theorem instructionFrame : Obligations.InstructionFrame := by
  unfold Obligations.InstructionFrame
  exact fun _ _ _ h => exec_onlyChanges h

end Sys2Proof.Machine

/-! PROOF. What every step keeps: where PC, the stack, memory and VF stand after an instruction (10_state.md R23, R25). -/

namespace Sys2Proof.Machine

/-! ### PC after the operations that set it -/

section
variable {s t : State}

theorem skipIf_pc_toNat (cond : Bool) (hs : s.pc.toNat ≤ 0x1000) :
    (skipIf cond s).pc.toNat = if cond then s.pc.toNat + 2 else s.pc.toNat := by
  cases cond with
  | true =>
    simp [skipIf, BitVec.toNat_add]
    omega
  | false => rfl

theorem skipOnKey_pc_toNat {op : Word} {x : Reg} {wanted : Bool} (h : skipOnKey op x wanted s = .next t)
    (hs : s.pc.toNat ≤ 0x1000) :
    t.pc.toNat = if s.keyHeld (s.readReg x).toNat = wanted then s.pc.toNat + 2 else s.pc.toNat := by
  unfold skipOnKey at h
  split at h
  · cases h
  · cases h
    simpa using skipIf_pc_toNat (s.keyHeld (s.readReg x).toNat == wanted) hs

/-- The sum of `Bnnn` is exact: it is at most 0xFF + 0xFFF. -/
theorem jpV0_sum_toNat (b : Byte) (nnn : BitVec 12) : (zext16 b + target nnn).toNat = b.toNat + nnn.toNat := by
  rw [BitVec.toNat_add, zext16_toNat, target_toNat]
  exact Nat.mod_eq_of_lt (by omega)

theorem stack_getD (s : State) {k : Nat} (hk : k < 16) : s.stack.toList.getD k 0 = s.stack[k] := by
  simp [List.getD_eq_getElem?_getD, hk]

theorem popPc_pc {op : Word} (h : popPc op s = .next t) : t.pc = s.stack.toList.getD (s.sp.val - 1) 0 := by
  rcases popPc_cases op s with ⟨_, hp⟩ | ⟨-, hp⟩
  · cases hp.symm.trans h
    exact (stack_getD s (by omega)).symm
  · cases hp.symm.trans h

/-- The key read leaves PC when some key is held, and takes it back to its own instruction when none is. -/
theorem execLdVxKey_pc_toNat {x : Reg} (h : execLdVxKey x s = .next t) (hs : 2 ≤ s.pc.toNat) :
    t.pc.toNat = if ∃ k : Fin 16, s.keyHeld k.val = true then s.pc.toNat else s.pc.toNat - 2 := by
  unfold execLdVxKey lowestKey at h
  rcases lowestKeyFrom_cases s 0 16 with ⟨j, hj, -, hlt, held, -⟩ | ⟨hn, free⟩
  · rw [hj] at h
    cases h
    rw [if_pos ⟨⟨j, by omega⟩, held⟩, State.writeReg_pc]
  · rw [hn] at h
    cases h
    rw [if_neg (by rintro ⟨k, hk⟩; simp [free k.val (by omega) (by omega)] at hk), State.setPc_pc]
    exact BitVec.toNat_sub_of_le (BitVec.le_def.2 hs)

end

/-! ### PC after every instruction -/

/-- PC after the execute phase, in every state whose PC a fetch has advanced. -/
theorem exec_pc_toNat {i : Instr} {s t : State} (h : exec i s = .next t) (hlo : 2 ≤ s.pc.toNat)
    (hhi : s.pc.toNat ≤ 0x1000) : t.pc.toNat = pcAfter i s := by
  cases i with
  | jp nnn =>
    cases h
    exact target_toNat nnn
  | call nnn =>
    obtain ⟨pushed, -, hj⟩ := andThen_eq_next.1 h
    cases hj
    exact target_toNat nnn
  | jpV0 nnn =>
    cases h
    exact jpV0_sum_toNat _ nnn
  | ret => exact congrArg BitVec.toNat (popPc_pc h)
  | seImm | sneImm | seReg | sneReg =>
    cases h
    exact (skipIf_pc_toNat _ hhi).trans (by simp [pcAfter])
  | skp | sknp => exact skipOnKey_pc_toNat h hhi
  | ldVxKey => exact execLdVxKey_pc_toNat h hlo
  | _ =>
    obtain ⟨-, -, -, pc, -⟩ := exec_onlyChanges h
    exact congrArg BitVec.toNat (pc (by simp [writes]))

/-- The bound of 10_state.md R25: the farthest target is that of `Bnnn`. -/
theorem pcAfter_le (i : Instr) (s : State) (hpc : s.pc.toNat ≤ 0x1000)
    (hstack : ∀ k : Fin 16, (s.stack[k.val]).toNat ≤ 0x1000) : pcAfter i s ≤ 0x10FE := by
  cases i with
  | ret =>
    rw [pcAfter, stack_getD s (by omega)]
    exact (hstack ⟨s.sp.val - 1, by omega⟩).trans (by decide)
  | seImm | sneImm | seReg | sneReg | skp | sknp | ldVxKey =>
    simp only [pcAfter]
    split <;> omega
  | _ =>
    simp only [pcAfter]
    omega

/-! ### The stack after every instruction -/

/-- Only a call writes a stack slot, and it writes the PC it will return to (40_flow_control.md R113). -/
theorem exec_stack_cases {i : Instr} {s t : State} (h : exec i s = .next t) :
    t.stack = s.stack ∨ ∃ hsp : s.sp.val < 16, t.stack = s.stack.set s.sp.val s.pc := by
  cases i with
  | call =>
    obtain ⟨pushed, hp, hj⟩ := andThen_eq_next.1 h
    cases hj
    rcases pushPc_cases _ s with ⟨hsp, e⟩ | ⟨-, e⟩
    · cases e.symm.trans hp
      exact .inr ⟨hsp, rfl⟩
    · cases e.symm.trans hp
  | ret =>
    rcases popPc_cases _ s with ⟨_, e⟩ | ⟨-, e⟩
    · cases e.symm.trans h
      exact .inl rfl
    · cases e.symm.trans h
  | _ =>
    obtain ⟨-, -, -, -, stack, -⟩ := exec_onlyChanges h
    exact .inl (stack (by simp [writes])).1

theorem exec_stack_le {i : Instr} {s t : State} (h : exec i s = .next t) (hpc : s.pc.toNat ≤ 0x1000)
    (hstack : ∀ k : Fin 16, (s.stack[k.val]).toNat ≤ 0x1000) (k : Fin 16) : (t.stack[k.val]).toNat ≤ 0x1000 := by
  rcases exec_stack_cases h with e | ⟨_, e⟩
  · simpa [e] using hstack k
  · simp only [e, Vector.getElem_set]
    split
    · exact hpc
    · exact hstack k

/-! ### Memory after every instruction -/

section
variable {s t : State}

theorem skipIf_mem (cond : Bool) : (skipIf cond s).mem = s.mem := by
  cases cond <;> rfl

theorem skipOnKey_mem {op : Word} {x : Reg} {wanted : Bool} (h : skipOnKey op x wanted s = .next t) :
    t.mem = s.mem := by
  unfold skipOnKey at h
  split at h
  · cases h
  · cases h
    exact skipIf_mem _

theorem execLdVxKey_mem {x : Reg} (h : execLdVxKey x s = .next t) : t.mem = s.mem := by
  unfold execLdVxKey at h
  split at h <;> cases h <;> rfl

theorem pushPc_mem {op : Word} (h : pushPc op s = .next t) : t.mem = s.mem := by
  rcases pushPc_cases op s with ⟨_, e⟩ | ⟨-, e⟩ <;> cases e.symm.trans h
  rfl

theorem popPc_mem {op : Word} (h : popPc op s = .next t) : t.mem = s.mem := by
  rcases popPc_cases op s with ⟨_, e⟩ | ⟨-, e⟩ <;> cases e.symm.trans h
  rfl

/-- Stores that do not fault keep the canonical form. -/
theorem memWriteMany_wf {op : Option Word} {a : Nat} {bs : List Byte} (h : memWriteMany op a bs s = .next t)
    (hs : s.mem.wf = true) : t.mem.wf = true := by
  rw [memWriteMany_eq] at h
  split at h
  · next inside =>
    cases h
    exact storeAll_wf a bs s inside hs
  · cases h

/-- Only the two storing instructions touch the memory list, and their stores keep its canonical form. -/
theorem exec_mem_wf {i : Instr} (h : exec i s = .next t) (hs : s.mem.wf = true) : t.mem.wf = true := by
  cases i with
  | ldBcd | storeRegs => exact memWriteMany_wf h hs
  | ret => rwa [popPc_mem h]
  | call =>
    obtain ⟨pushed, hp, hj⟩ := andThen_eq_next.1 h
    cases hj
    rwa [State.setPc_mem, pushPc_mem hp]
  | seImm | sneImm | seReg | sneReg =>
    cases h
    rwa [skipIf_mem]
  | skp | sknp => rwa [skipOnKey_mem h]
  | ldVxKey => rwa [execLdVxKey_mem h]
  | loadRegs | drw =>
    obtain ⟨bytes, -, hn⟩ := andThen_eq_next.1 h
    cases hn
    exact hs
  | _ =>
    cases h
    exact hs

end

/-! ### The invariant -/

/-- Every instruction keeps the invariant, in every state whose PC a fetch has advanced. -/
theorem exec_keeps_inv {i : Instr} {s t : State} (hi : Inv s) (hlo : 2 ≤ s.pc.toNat) (hhi : s.pc.toNat ≤ 0x1000)
    (h : exec i s = .next t) : Inv t := by
  obtain ⟨hmem, -, hstack⟩ := hi
  refine ⟨exec_mem_wf h hmem, ?_, exec_stack_le h hhi hstack⟩
  rw [exec_pc_toNat h hlo hhi]
  exact pcAfter_le i s hhi hstack

/-- A fetch that succeeds keeps the invariant. -/
theorem advance_keeps_inv {s : State} (hi : Inv s) (hp : s.pc.toNat ≤ 0xFFE) : Inv s.advance := by
  obtain ⟨hmem, -, hstack⟩ := hi
  exact ⟨hmem, by rw [advance_pc_toNat hp]; omega, hstack⟩

/-- Settles O59: a step is a fetch, which leaves PC between 2 and 0x1000, and an instruction, which keeps each clause. -/
theorem stepKeepsInvariant : Obligations.StepKeepsInvariant := by
  unfold Obligations.StepKeepsInvariant
  intro s t hi h
  obtain ⟨i, -, hp, -, hx⟩ := step_eq_next h
  have hadv := advance_pc_toNat hp
  exact exec_keeps_inv (advance_keeps_inv hi hp) (by omega) (by omega) hx

/-- Settles O12, by the PC each instruction leaves and, for the bound, the step's invariant. -/
theorem programCounterAfterStep : Obligations.ProgramCounterAfterStep := by
  unfold Obligations.ProgramCounterAfterStep
  rintro s t i ⟨-, -, hd⟩ h
  constructor
  · obtain ⟨j, -, hp, hj, hx⟩ := step_eq_next h
    obtain rfl : i = j := Option.some.inj (hd.symm.trans hj)
    have hadv := advance_pc_toNat hp
    exact exec_pc_toNat hx (by omega) (by omega)
  · intro hi
    obtain ⟨-, bound, -⟩ := stepKeepsInvariant s t hi h
    exact bound

/-! ### The flag register -/

theorem flagByte_eq_zero_or_one (b : Bool) : flagByte b = 0 ∨ flagByte b = 1 := by
  cases b with
  | true => exact .inr rfl
  | false => exact .inl rfl

theorem writeFlagged_readReg_vf {x : Reg} (hx : x ≠ vf) (b : Bool) (result : Byte) (s : State) :
    (writeFlagged x (flagByte b) result s).readReg vf = 0 ∨ (writeFlagged x (flagByte b) result s).readReg vf = 1 := by
  rw [writeFlagged_readReg, if_neg hx, if_pos rfl]
  exact flagByte_eq_zero_or_one b

/-- A draw leaves its collision flag in VF, whatever registers it names (45_draw.md R170). -/
theorem showSprite_readReg_vf (x y : Reg) (sprite : List Byte) (s : State) :
    (showSprite x y sprite s).readReg vf =
      collisionFlag (drawSprite (s.readReg x).toNat (s.readReg y).toNat sprite s.fb).2 := by
  simp [showSprite]

/-- Settles O15: that VF is kept is the frame; the flag writers write a flag into it, and no result after it. -/
theorem flagRegisterWriters : Obligations.FlagRegisterWriters := by
  unfold Obligations.FlagRegisterWriters
  intro i s t h
  obtain ⟨regs, -⟩ := exec_onlyChanges h
  refine ⟨regs vf, ?_⟩
  cases i with
  | addReg | subReg | subnReg | shr | shl =>
    cases h
    exact fun hx => writeFlagged_readReg_vf hx _ _ s
  | drw x y =>
    obtain ⟨sprite, -, hd⟩ := andThen_eq_next.1 h
    cases hd
    simp only [showSprite_readReg_vf]
    exact flagByte_eq_zero_or_one _
  | _ => trivial

end Sys2Proof.Machine

/-! PROOF. Fetch and store: the value of the fetched word, the step about a decoded instruction, and that a later fetch
reads what a bulk store wrote (20_memory.md R54, R63). -/

namespace Sys2Proof.Machine

/-! ### The fetched word -/

/-- The byte at the lower address is the high byte of the word (20_memory.md R54). -/
theorem wordOfBytes_toNat (high low : Byte) : (wordOfBytes high low).toNat = high.toNat * 256 + low.toNat := by
  have hlow : low.toNat < 2 ^ 8 := low.isLt
  rw [wordOfBytes, BitVec.toNat_append, ← Nat.shiftLeft_add_eq_or_of_lt hlow, Nat.shiftLeft_eq]

/-- Settles O7, by the one equation of the fetch: the first address above 0xFFF is the larger of PC and 0x1000. -/
theorem fetchReadsTwoBytesOrFaults : Obligations.FetchReadsTwoBytesOrFaults := by
  unfold Obligations.FetchReadsTwoBytesOrFaults
  intro s
  refine ⟨fun inside => ⟨_, by rw [fetch_eq, if_pos inside], wordOfBytes_toNat _ _⟩, fun last => ?_, fun above => ?_⟩
  · rw [fetch_eq, if_neg (by omega), last]
    rfl
  · rw [fetch_eq, if_neg (by omega), max_eq_left (by omega)]

/-! ### The step about a decoded instruction -/

theorem fetchInstr_of_about {s : State} {i : Instr} (h : About s i) : fetchInstr s = .next i := by
  obtain ⟨-, hpc, hdec⟩ := h
  rcases fetchInstr_cases s with ⟨j, -, hj, hf⟩ | ⟨-, hn, -⟩ | ⟨hout, -⟩
  · rw [hf, Option.some.inj (hdec.symm.trans hj)]
  · cases hdec.symm.trans hn
  · omega

/-- A step about `i` is `i` executed with PC advanced (30_encoding.md R80). -/
theorem step_of_about {s : State} {i : Instr} (h : About s i) : step s = exec i s.advance := by
  have ⟨hrun, _⟩ := h
  rw [step, fetchInstr_of_about h, andThen_next, whenRunning, hrun]

/-! ### The bulk store, seen by a later read -/

/-- `Fx55` stores V0 to Vx from I on, or faults at the first address above 0xFFF (43_index_memory.md R154). -/
theorem exec_storeRegs (x : Reg) (s : State) :
    exec (.storeRegs x) s =
      if s.i.toNat + x.val ≤ 0xFFF then .next (storeAll s.i.toNat (regsUpTo x s) s)
      else .fault (.memoryOutOfBounds (some (encode (.storeRegs x))) (max s.i.toNat 0x1000)) := by
  have hlen := regsUpTo_length x s
  have nonempty : regsUpTo x s ≠ [] := List.ne_nil_of_length_eq_add_one hlen
  refine (memWriteMany_eq _ _ _ _).trans (if_congr ?_ rfl rfl)
  rw [or_iff_right nonempty]
  omega

/-- The byte `k` places after the start of a bulk store is `V[k]`. -/
theorem storeAll_regsUpTo_readByte {x k : Reg} (h : k ≤ x) (a : Nat) (s : State) :
    (storeAll a (regsUpTo x s) s).readByte (a + k.val) = s.readReg k := by
  have reached : k.val < x.val + 1 := Nat.lt_succ_of_le h
  rw [storeAll_readByte, regsUpTo_length, if_pos (by omega), Nat.add_sub_cancel_left, regsUpTo_getD x s k h]

/-- Settles O41: the step leaves the stores of `Fx55`, and the fetch at I reads the first two of them. -/
theorem storedCodeIsFetched : Obligations.StoredCodeIsFetched := by
  unfold Obligations.StoredCodeIsFetched
  intro s x habout hx inside
  have hstep : step s = .next (storeAll s.i.toNat (regsUpTo x s.advance) s.advance) := by
    rw [step_of_about habout, exec_storeRegs, State.advance_i, if_pos inside]
  have high := storeAll_regsUpTo_readByte (k := 0) (Fin.zero_le x) s.i.toNat s.advance
  have low := storeAll_regsUpTo_readByte (k := 1) hx s.i.toNat s.advance
  refine ⟨_, hstep, ?_⟩
  rw [fetch_eq, State.setPc_pc, if_pos (by omega)]
  exact congrArg Host.Outcome.next (congrArg₂ wordOfBytes high low)

end Sys2Proof.Machine

/-! PROOF. Encoding: decode and encode are inverse to each other, the decoder follows the opcode map, and how many words
are legal (30_encoding.md R80 to R94). -/

namespace Sys2Proof

/-! ### The fields of the words the encoder builds -/

section
variable (d1 : BitVec 4) (x y : Reg) (n : BitVec 4) (kk : Byte) (nnn : BitVec 12)

@[simp] theorem nibble1_encNnn : (encNnn d1 nnn).extractLsb' 12 4 = d1 :=
  BitVec.eq_of_toNat_eq (by rw [nibble1_toNat, encNnn_toNat]; omega)

@[simp] theorem nibble1_encXkk : (encXkk d1 x kk).extractLsb' 12 4 = d1 :=
  BitVec.eq_of_toNat_eq (by rw [nibble1_toNat, encXkk_toNat]; omega)

@[simp] theorem nibble1_encXyn : (encXyn d1 x y n).extractLsb' 12 4 = d1 :=
  BitVec.eq_of_toNat_eq (by rw [nibble1_toNat, encXyn_toNat]; omega)

@[simp] theorem fieldNnn_encNnn : fieldNnn (encNnn d1 nnn) = nnn :=
  BitVec.eq_of_toNat_eq (by rw [fieldNnn_toNat, encNnn_toNat]; omega)

@[simp] theorem fieldX_encXkk : fieldX (encXkk d1 x kk) = x :=
  Fin.ext (by rw [fieldX_val, encXkk_toNat]; omega)

@[simp] theorem fieldKk_encXkk : fieldKk (encXkk d1 x kk) = kk :=
  BitVec.eq_of_toNat_eq (by rw [fieldKk_toNat, encXkk_toNat]; omega)

@[simp] theorem fieldX_encXyn : fieldX (encXyn d1 x y n) = x :=
  Fin.ext (by rw [fieldX_val, encXyn_toNat]; omega)

@[simp] theorem fieldY_encXyn : fieldY (encXyn d1 x y n) = y :=
  Fin.ext (by rw [fieldY_val, encXyn_toNat]; omega)

@[simp] theorem fieldN_encXyn : fieldN (encXyn d1 x y n) = n :=
  BitVec.eq_of_toNat_eq (by rw [fieldN_toNat, encXyn_toNat]; omega)

end

/-! ### Decode of encode -/

/-- Settles O2, by cases on the instruction: each family of the decoder reads the fields back from the word. -/
theorem decodeOfEncodeIsIdentity : Obligations.DecodeOfEncodeIsIdentity := by
  unfold Obligations.DecodeOfEncodeIsIdentity
  intro i
  cases i with
  | nop | cls | ret => decide
  | jp | call | ldI | jpV0 | seImm | sneImm | ldImm | addImm | rnd | seReg | sneReg | drw => simp [encode, decodeWord]
  | ldReg | orReg | andReg | xorReg | addReg | subReg | shr | subnReg | shl => simp [encode, decodeWord, decodeAlu]
  | skp | sknp => simp [encode, decodeWord, decodeKeySkip]
  | ldVxDt | ldVxKey | ldDtVx | ldStVx | addI | ldGlyph | ldBcd | storeRegs | loadRegs =>
    simp [encode, decodeWord, decodeMisc]

/-! ### Encode of decode: a word is rebuilt from its fields -/

section
variable {w : Word} {d1 : BitVec 4} {i : Instr}

theorem encNnn_fields (hd : (w.extractLsb' 12 4).toNat = d1.toNat) : encNnn d1 (fieldNnn w) = w := by
  apply BitVec.eq_of_toNat_eq
  rw [encNnn_toNat, ← hd, nibble1_toNat, fieldNnn_toNat]
  omega

theorem encXkk_fields {kk : Byte} (hd : (w.extractLsb' 12 4).toNat = d1.toNat) (hk : fieldKk w = kk) :
    encXkk d1 (fieldX w) kk = w := by
  apply BitVec.eq_of_toNat_eq
  rw [encXkk_toNat, ← hd, ← hk, nibble1_toNat, fieldX_val, fieldKk_toNat]
  omega

theorem encXyn_fields {n : BitVec 4} (hd : (w.extractLsb' 12 4).toNat = d1.toNat)
    (hn : (fieldN w).toNat = n.toNat) : encXyn d1 (fieldX w) (fieldY w) n = w := by
  apply BitVec.eq_of_toNat_eq
  rw [encXyn_toNat, ← hd, ← hn, nibble1_toNat, fieldX_val, fieldY_val, fieldN_toNat]
  omega

theorem encode_of_decodeFixed (h : decodeFixed w = some i) : encode i = w := by
  unfold decodeFixed at h
  split_ifs at h with hw hw hw <;> cases h <;> exact hw.symm

theorem encode_of_decodeAlu (hd : (w.extractLsb' 12 4).toNat = 0x8) (h : decodeAlu w = some i) : encode i = w := by
  unfold decodeAlu at h
  split at h <;> cases h <;> exact encXyn_fields hd ‹_›

theorem encode_of_decodeKeySkip (hd : (w.extractLsb' 12 4).toNat = 0xE) (h : decodeKeySkip w = some i) :
    encode i = w := by
  unfold decodeKeySkip at h
  split_ifs at h with hk hk <;> cases h <;> exact encXkk_fields hd hk

theorem encode_of_decodeMisc (hd : (w.extractLsb' 12 4).toNat = 0xF) (h : decodeMisc w = some i) : encode i = w := by
  unfold decodeMisc at h
  split_ifs at h with hk hk hk hk hk hk hk hk hk <;> cases h <;> exact encXkk_fields hd hk

/-- The two families `5xy0` and `9xy0`, whose last nibble carries no operand. -/
theorem encXyn_of_lastNibbleZero {j : Instr} (hd : (w.extractLsb' 12 4).toNat = d1.toNat)
    (hj : encode j = encXyn d1 (fieldX w) (fieldY w) 0)
    (h : (if fieldN w = 0 then some j else none) = some i) : encode i = w := by
  split_ifs at h with hn
  cases h
  exact hj.trans (encXyn_fields hd (congrArg BitVec.toNat hn))

end

/-- Settles O3, by cases on the first nibble: whatever the family, the word is its fixed bits and the fields decoded. -/
theorem encodeOfDecodeIsIdentity : Obligations.EncodeOfDecodeIsIdentity := by
  unfold Obligations.EncodeOfDecodeIsIdentity
  intro w i h
  unfold decodeWord at h
  split at h
  case h_1 => exact encode_of_decodeFixed h
  case h_9 hd => exact encode_of_decodeAlu hd h
  case h_15 hd => exact encode_of_decodeKeySkip hd h
  case h_16 hd => exact encode_of_decodeMisc hd h
  case h_17 => cases h
  case h_6 hd => exact encXyn_of_lastNibbleZero (d1 := 0x5) hd rfl h
  case h_10 hd => exact encXyn_of_lastNibbleZero (d1 := 0x9) hd rfl h
  case h_2 hd | h_3 hd | h_11 hd | h_12 hd =>
    cases h
    exact encNnn_fields hd
  case h_4 hd | h_5 hd | h_7 hd | h_8 hd | h_13 hd =>
    cases h
    exact encXkk_fields hd rfl
  case h_14 hd =>
    cases h
    exact encXyn_fields hd rfl

/-! ### The rows of the opcode map -/

section
variable {w m p : Word} {d1 : BitVec 4}

/-- Where a mask keeps every bit of a field, the selected word has the pattern's field there. -/
theorem field_eq_of_masked {start len : Nat} {f : BitVec len} (h : w &&& m = p)
    (hm : m.extractLsb' start len = BitVec.allOnes len) (hp : p.extractLsb' start len = f) :
    w.extractLsb' start len = f := by
  rw [← hp, ← h, BitVec.extractLsb'_and, hm, BitVec.and_allOnes]

/-- A word that the mask F000 selects is an `NNN` word. -/
theorem encNnn_of_masked (h : w &&& 0xF000 = p) (hp : p.extractLsb' 12 4 = d1) : encNnn d1 (fieldNnn w) = w :=
  encNnn_fields (congrArg BitVec.toNat (field_eq_of_masked h rfl hp))

/-- A word that the mask F000 selects is an `XKK` word. -/
theorem encXkk_of_masked (h : w &&& 0xF000 = p) (hp : p.extractLsb' 12 4 = d1) :
    encXkk d1 (fieldX w) (fieldKk w) = w :=
  encXkk_fields (congrArg BitVec.toNat (field_eq_of_masked h rfl hp)) rfl

/-- A word that the mask F000 selects is an `XYN` word. -/
theorem encXyn_of_masked (h : w &&& 0xF000 = p) (hp : p.extractLsb' 12 4 = d1) :
    encXyn d1 (fieldX w) (fieldY w) (fieldN w) = w :=
  encXyn_fields (congrArg BitVec.toNat (field_eq_of_masked h rfl hp)) rfl

/-- A word that the mask F00F selects is an `XY` word. -/
theorem encXy_of_masked {n : BitVec 4} (h : w &&& 0xF00F = p) (hp : p.extractLsb' 12 4 = d1)
    (hn : p.extractLsb' 0 4 = n) : encXyn d1 (fieldX w) (fieldY w) n = w :=
  encXyn_fields (congrArg BitVec.toNat (field_eq_of_masked h rfl hp))
    (congrArg BitVec.toNat (field_eq_of_masked h rfl hn))

/-- A word that the mask F0FF selects is an `X` word. -/
theorem encX_of_masked {kk : Byte} (h : w &&& 0xF0FF = p) (hp : p.extractLsb' 12 4 = d1)
    (hk : p.extractLsb' 0 8 = kk) : encXkk d1 (fieldX w) kk = w :=
  encXkk_fields (congrArg BitVec.toNat (field_eq_of_masked h rfl hp)) (field_eq_of_masked h rfl hk)

/-- A word that the mask FFFF selects is the pattern. -/
theorem eq_of_masked (h : w &&& 0xFFFF = p) : p = w := h.symm.trans BitVec.and_allOnes

end

/-- A word is of a row when it is the word of an instruction of that row. -/
def OpcodeRow.IsOf (r : OpcodeRow) (w : Word) : Prop := ∃ i : Instr, i.mnemonic = r.mnemonic ∧ encode i = w

theorem isOf_of_selects (w : Word) : ∀ r ∈ Config.opcodeMap, w &&& r.mask = r.pattern → r.IsOf w := by
  simp only [Config.opcodeMap, List.cons_append, List.nil_append, List.forall_mem_cons]
  exact ⟨fun h => ⟨.nop, rfl, eq_of_masked h⟩,
    fun h => ⟨.cls, rfl, eq_of_masked h⟩,
    fun h => ⟨.ret, rfl, eq_of_masked h⟩,
    fun h => ⟨.jp _, rfl, encNnn_of_masked h rfl⟩,
    fun h => ⟨.call _, rfl, encNnn_of_masked h rfl⟩,
    fun h => ⟨.seImm _ _, rfl, encXkk_of_masked h rfl⟩,
    fun h => ⟨.sneImm _ _, rfl, encXkk_of_masked h rfl⟩,
    fun h => ⟨.seReg _ _, rfl, encXy_of_masked h rfl rfl⟩,
    fun h => ⟨.ldImm _ _, rfl, encXkk_of_masked h rfl⟩,
    fun h => ⟨.addImm _ _, rfl, encXkk_of_masked h rfl⟩,
    fun h => ⟨.ldReg _ _, rfl, encXy_of_masked h rfl rfl⟩,
    fun h => ⟨.orReg _ _, rfl, encXy_of_masked h rfl rfl⟩,
    fun h => ⟨.andReg _ _, rfl, encXy_of_masked h rfl rfl⟩,
    fun h => ⟨.xorReg _ _, rfl, encXy_of_masked h rfl rfl⟩,
    fun h => ⟨.addReg _ _, rfl, encXy_of_masked h rfl rfl⟩,
    fun h => ⟨.subReg _ _, rfl, encXy_of_masked h rfl rfl⟩,
    fun h => ⟨.shr _ _, rfl, encXy_of_masked h rfl rfl⟩,
    fun h => ⟨.subnReg _ _, rfl, encXy_of_masked h rfl rfl⟩,
    fun h => ⟨.shl _ _, rfl, encXy_of_masked h rfl rfl⟩,
    fun h => ⟨.sneReg _ _, rfl, encXy_of_masked h rfl rfl⟩,
    fun h => ⟨.ldI _, rfl, encNnn_of_masked h rfl⟩,
    fun h => ⟨.jpV0 _, rfl, encNnn_of_masked h rfl⟩,
    fun h => ⟨.rnd _ _, rfl, encXkk_of_masked h rfl⟩,
    fun h => ⟨.drw _ _ _, rfl, encXyn_of_masked h rfl⟩,
    fun h => ⟨.skp _, rfl, encX_of_masked h rfl rfl⟩,
    fun h => ⟨.sknp _, rfl, encX_of_masked h rfl rfl⟩,
    fun h => ⟨.ldVxDt _, rfl, encX_of_masked h rfl rfl⟩,
    fun h => ⟨.ldVxKey _, rfl, encX_of_masked h rfl rfl⟩,
    fun h => ⟨.ldDtVx _, rfl, encX_of_masked h rfl rfl⟩,
    fun h => ⟨.ldStVx _, rfl, encX_of_masked h rfl rfl⟩,
    fun h => ⟨.addI _, rfl, encX_of_masked h rfl rfl⟩,
    fun h => ⟨.ldGlyph _, rfl, encX_of_masked h rfl rfl⟩,
    fun h => ⟨.ldBcd _, rfl, encX_of_masked h rfl rfl⟩,
    fun h => ⟨.storeRegs _, rfl, encX_of_masked h rfl rfl⟩,
    fun h => ⟨.loadRegs _, rfl, encX_of_masked h rfl rfl⟩,
    List.forall_mem_nil _⟩

/-- A word that selects a row decodes to an instruction of that row. -/
theorem decode_of_selects {r : OpcodeRow} {w : Word} (hr : r ∈ Config.opcodeMap) (h : r.selects w = true) :
    ∃ i, decodeWord w = some i ∧ i.mnemonic = r.mnemonic := by
  obtain ⟨i, hm, rfl⟩ := isOf_of_selects w r hr (by simpa [OpcodeRow.selects] using h)
  exact ⟨i, decodeOfEncodeIsIdentity i, hm⟩

open Laws.SelectsOwnRow in
/-- The word of every instruction selects the instruction's own row. -/
theorem encode_selectsOwnRow : ∀ i : Instr, Statement i
  | .nop => nop
  | .cls => cls
  | .ret => ret
  | .jp _ => jp _
  | .call _ => call _
  | .seImm _ _ => seImm _ _
  | .sneImm _ _ => sneImm _ _
  | .seReg _ _ => seReg _ _
  | .ldImm _ _ => ldImm _ _
  | .addImm _ _ => addImm _ _
  | .ldReg _ _ => ldReg _ _
  | .orReg _ _ => orReg _ _
  | .andReg _ _ => andReg _ _
  | .xorReg _ _ => xorReg _ _
  | .addReg _ _ => addReg _ _
  | .subReg _ _ => subReg _ _
  | .shr _ _ => shr _ _
  | .subnReg _ _ => subnReg _ _
  | .shl _ _ => shl _ _
  | .sneReg _ _ => sneReg _ _
  | .ldI _ => ldI _
  | .jpV0 _ => jpV0 _
  | .rnd _ _ => rnd _ _
  | .drw _ _ _ => drw _ _ _
  | .skp _ => skp _
  | .sknp _ => sknp _
  | .ldVxDt _ => ldVxDt _
  | .ldVxKey _ => ldVxKey _
  | .ldDtVx _ => ldDtVx _
  | .ldStVx _ => ldStVx _
  | .addI _ => addI _
  | .ldGlyph _ => ldGlyph _
  | .ldBcd _ => ldBcd _
  | .storeRegs _ => storeRegs _
  | .loadRegs _ => loadRegs _

/-- A word that decodes selects a row under the mnemonic of the instruction it decodes to. -/
theorem selects_of_decode {w : Word} {i : Instr} (h : decodeWord w = some i) :
    ∃ r ∈ Config.opcodeMap, r.selects w = true ∧ r.mnemonic = i.mnemonic := by
  obtain ⟨r, hr, hs⟩ := encode_selectsOwnRow i
  rw [encodeOfDecodeIsIdentity w i h] at hs
  exact ⟨r, List.mem_of_find?_eq_some hr, hs, by simpa using List.find?_some hr⟩

/-- The legal words are those that decode (30_encoding.md R90, R94). -/
theorem legalWord_eq_isSome (w : Word) : legalWord w = (decodeWord w).isSome := by
  rw [Bool.eq_iff_iff, legalWord, List.any_eq_true, Option.isSome_iff_exists]
  constructor
  · rintro ⟨r, hr, hs⟩
    obtain ⟨i, hi, -⟩ := decode_of_selects hr hs
    exact ⟨i, hi⟩
  · rintro ⟨i, hi⟩
    obtain ⟨r, hr, hs, -⟩ := selects_of_decode hi
    exact ⟨r, hr, hs⟩

/-- The mnemonics of the rows a word selects. -/
def selectedMnemonics (w : Word) : List String :=
  (Config.opcodeMap.filter fun r => r.selects w).map (·.mnemonic)

theorem mem_selectedMnemonics {w : Word} {m : String} :
    m ∈ selectedMnemonics w ↔ m ∈ ((decodeWord w).map Instr.mnemonic).toList := by
  simp only [selectedMnemonics, List.mem_map, List.mem_filter, Option.mem_toList, Option.map_eq_some_iff]
  constructor
  · rintro ⟨r, ⟨hr, hs⟩, rfl⟩
    exact decode_of_selects hr hs
  · rintro ⟨i, hi, rfl⟩
    obtain ⟨r, hr, hs, hm⟩ := selects_of_decode hi
    exact ⟨r, ⟨hr, hs⟩, hm⟩

theorem nodup_mnemonics : (Config.opcodeMap.map (·.mnemonic)).Nodup := by decide

theorem nodup_selectedMnemonics (w : Word) : (selectedMnemonics w).Nodup :=
  nodup_mnemonics.sublist (List.filter_sublist.map _)

/-- Settles O4: the mnemonics of the selected rows are distinct, and the decoded instruction's is the only one there. -/
theorem decoderFollowsOpcodeMap : Obligations.DecoderFollowsOpcodeMap := by
  unfold Obligations.DecoderFollowsOpcodeMap
  refine ⟨rfl, fun w => ?_⟩
  have nodup : ((decodeWord w).map Instr.mnemonic).toList.Nodup := Option.toList_nodup _
  have perm : (selectedMnemonics w).Perm ((decodeWord w).map Instr.mnemonic).toList :=
    (List.perm_ext_iff_of_nodup (nodup_selectedMnemonics w) nodup).2 fun _ => mem_selectedMnemonics
  cases hd : (decodeWord w).map Instr.mnemonic with
  | none =>
    rw [hd] at perm
    exact perm.eq_nil
  | some m =>
    rw [hd] at perm
    exact List.perm_singleton.1 perm

/-- Settles O1, by evaluation of the decoder on the fourteen words. -/
theorem sampleWordsDecode : Obligations.SampleWordsDecode := by
  unfold Obligations.SampleWordsDecode
  decide

/-! ### The patterns as numbers -/

section
variable (d1 : BitVec 4) (x y : Reg) (n : BitVec 4) (kk : Byte)

/-- The fixed bits of an `X` word are its first nibble and its low byte. -/
theorem encX_toNat : (encXkk d1 x kk).toNat = d1.toNat * 0x1000 + kk.toNat + x.val * 0x100 := by
  rw [encXkk_toNat]
  omega

/-- The fixed bits of an `XY` word are its first nibble and its last. -/
theorem encXy_toNat :
    (encXyn d1 x y n).toNat = d1.toNat * 0x1000 + n.toNat + x.val * 0x100 + y.val * 0x10 := by
  rw [encXyn_toNat]
  omega

end

/-- Settles O6, row by row: the number of a word of the row's format, at the row's fixed bits. -/
theorem encodingPatterns : Obligations.EncodingPatterns := by
  unfold Obligations.EncodingPatterns
  intro x y n kk nnn
  exact ⟨rfl, rfl, rfl, encNnn_toNat _ _, encNnn_toNat _ _, encXkk_toNat _ _ _, encXkk_toNat _ _ _,
    encXy_toNat _ _ _ _, encXkk_toNat _ _ _, encXkk_toNat _ _ _,
    encXy_toNat _ _ _ _, encXy_toNat _ _ _ _, encXy_toNat _ _ _ _, encXy_toNat _ _ _ _, encXy_toNat _ _ _ _,
    encXy_toNat _ _ _ _, encXy_toNat _ _ _ _, encXy_toNat _ _ _ _, encXy_toNat _ _ _ _, encXy_toNat _ _ _ _,
    encNnn_toNat _ _, encNnn_toNat _ _, encXkk_toNat _ _ _, encXyn_toNat _ _ _ _,
    encX_toNat _ _ _, encX_toNat _ _ _, encX_toNat _ _ _, encX_toNat _ _ _, encX_toNat _ _ _, encX_toNat _ _ _,
    encX_toNat _ _ _, encX_toNat _ _ _, encX_toNat _ _ _, encX_toNat _ _ _, encX_toNat _ _ _⟩

/-! ### How many words are legal -/

/-- The low part of a word that the decoder compares in the family `d1`, as a modulus: all twelve bits, the low byte,
the last nibble, or nothing (30_encoding.md R92). -/
def lowModulus (d1 : Nat) : Nat :=
  match d1 with
  | 0x0 => 4096
  | 0x5 | 0x8 | 0x9 => 16
  | 0xE | 0xF => 256
  | _ => 1

/-- The values of that low part with which a word is legal (30_encoding.md R92). -/
def lowValues (d1 : Nat) : List Nat :=
  match d1 with
  | 0x0 => [0x000, 0x0E0, 0x0EE]
  | 0x8 => [0x0, 0x1, 0x2, 0x3, 0x4, 0x5, 0x6, 0x7, 0xE]
  | 0xE => [0x9E, 0xA1]
  | 0xF => [0x07, 0x0A, 0x15, 0x18, 0x1E, 0x29, 0x33, 0x55, 0x65]
  | _ => [0x0]

section
variable {w : Word}

theorem decodeFixed_isSome (hd : w.toNat / 4096 = 0) :
    (decodeFixed w).isSome = (lowValues 0x0).contains (w.toNat % 4096) := by
  have hw : w.toNat % 4096 = w.toNat := by omega
  unfold decodeFixed
  simp only [BitVec.toNat_eq, hw]
  split_ifs <;> simp_all [lowValues]

theorem decodeAlu_isSome : (decodeAlu w).isSome = (lowValues 0x8).contains (w.toNat % 16) := by
  unfold decodeAlu
  rw [← fieldN_toNat]
  split <;> simp_all [lowValues]

theorem decodeKeySkip_isSome : (decodeKeySkip w).isSome = (lowValues 0xE).contains (w.toNat % 256) := by
  unfold decodeKeySkip
  simp only [BitVec.toNat_eq, fieldKk_toNat]
  split_ifs <;> simp_all [lowValues]

theorem decodeMisc_isSome : (decodeMisc w).isSome = (lowValues 0xF).contains (w.toNat % 256) := by
  unfold decodeMisc
  simp only [BitVec.toNat_eq, fieldKk_toNat]
  split_ifs <;> simp_all [lowValues]

theorem lastNibbleZero_isSome (j : Instr) :
    (if fieldN w = 0 then some j else none).isSome = [0x0].contains (w.toNat % 16) := by
  simp only [BitVec.toNat_eq, fieldN_toNat]
  split_ifs <;> simp_all

/-- A word decodes when the low part its family compares has one of the admitted values. -/
theorem decodeWord_isSome (w : Word) :
    (decodeWord w).isSome = (lowValues (w.toNat / 4096)).contains (w.toNat % lowModulus (w.toNat / 4096)) := by
  unfold decodeWord
  rw [← nibble1_toNat]
  split
  case h_1 hd =>
    rw [hd]
    exact decodeFixed_isSome ((nibble1_toNat w).symm.trans hd)
  case h_6 hd | h_10 hd =>
    rw [hd]
    exact lastNibbleZero_isSome _
  case h_9 hd =>
    rw [hd]
    exact decodeAlu_isSome
  case h_15 hd =>
    rw [hd]
    exact decodeKeySkip_isSome
  case h_16 hd =>
    rw [hd]
    exact decodeMisc_isSome
  case h_17 =>
    have := (w.extractLsb' 12 4).isLt
    simp only [imp_false] at *
    omega
  all_goals
    next hd =>
    rw [hd]
    simp [lowValues, lowModulus, Nat.mod_one]

end

/-! ### Counting in blocks -/

/-- The first `k * a` numbers are counted in `k` blocks of `a`. -/
theorem countP_range_mul (p : Nat → Bool) (k a : Nat) :
    (List.range (k * a)).countP p =
      ((List.range k).map fun j => (List.range a).countP fun n => p (j * a + n)).sum := by
  induction k with
  | zero => simp
  | succ k ih => simp [Nat.succ_mul, List.range_add, List.range_succ, ih, Function.comp_def]

section
variable {S : List Nat} {a : Nat} (nodup : S.Nodup) (below : ∀ v ∈ S, v < a)
include nodup below

theorem countP_range_contains : (List.range a).countP S.contains = S.length := by
  rw [List.countP_eq_length_filter]
  refine ((List.perm_ext_iff_of_nodup (List.nodup_range.filter _) nodup).2 fun v => ?_).length_eq
  simpa using below v

/-- Every block of `a` numbers has each of the values below `a` once as a remainder. -/
theorem countP_range_mod (k : Nat) :
    (List.range (k * a)).countP (fun n => S.contains (n % a)) = k * S.length := by
  have block (j : Nat) : (List.range a).countP (fun n => S.contains ((j * a + n) % a)) = S.length := by
    rw [← countP_range_contains nodup below]
    refine List.countP_congr fun n hn => ?_
    rw [Nat.mul_add_mod_self_right, Nat.mod_eq_of_lt (List.mem_range.1 hn)]
  simp only [countP_range_mul, block, List.map_const', List.sum_replicate, List.length_range, smul_eq_mul]

end

/-! ### The count of each family -/

/-- Of `k` words, those that do not decode are the rest. -/
theorem length_filter_isNone (word : Nat → Word) (k : Nat) :
    ((List.range k).filter fun n => (decodeWord (word n)).isNone).length =
      k - ((List.range k).filter fun n => (decodeWord (word n)).isSome).length := by
  have parts := List.length_eq_length_filter_add (l := List.range k) fun n => (decodeWord (word n)).isSome
  simp only [List.length_range, Option.not_isSome] at parts
  omega

theorem lowModulus_dvd : ∀ d1 < 16, lowModulus d1 ∣ 4096 := by decide

theorem lowValues_nodup : ∀ d1 < 16, (lowValues d1).Nodup := by decide

theorem lowValues_lt : ∀ d1 < 16, ∀ v ∈ lowValues d1, v < lowModulus d1 := by decide

/-- The number of legal words with the first nibble `d1`: the admitted values of the low part, once for each value of
the bits above it. -/
def legalInFamily (d1 : Nat) : Nat := 4096 / lowModulus d1 * (lowValues d1).length

section
variable {d1 : Nat} (hd : d1 < 16)
include hd

theorem decodeWord_isSome_family {n : Nat} (hn : n < 4096) :
    (decodeWord (BitVec.ofNat 16 (d1 * 4096 + n))).isSome = (lowValues d1).contains (n % lowModulus d1) := by
  have number : (BitVec.ofNat 16 (d1 * 4096 + n)).toNat = d1 * 4096 + n := Nat.mod_eq_of_lt (by omega)
  have family : (d1 * 4096 + n) / 4096 = d1 := by omega
  have low : (d1 * 4096 + n) % lowModulus d1 = n % lowModulus d1 := by
    rw [Nat.add_mod, Nat.mod_eq_zero_of_dvd ((lowModulus_dvd d1 hd).mul_left d1), Nat.zero_add, Nat.mod_mod]
  rw [decodeWord_isSome, number, family, low]

theorem length_filter_family :
    ((List.range 4096).filter fun n => (decodeWord (BitVec.ofNat 16 (d1 * 4096 + n))).isSome).length =
      legalInFamily d1 := by
  have blocks := countP_range_mod (lowValues_nodup d1 hd) (lowValues_lt d1 hd) (4096 / lowModulus d1)
  rw [Nat.div_mul_cancel (lowModulus_dvd d1 hd), List.countP_eq_length_filter] at blocks
  rw [List.filter_congr fun n hn => decodeWord_isSome_family hd (List.mem_range.1 hn)]
  exact blocks

end

/-- The 65536 words are those of the sixteen families. -/
theorem length_filter_all :
    ((List.range 65536).filter fun n => (decodeWord (BitVec.ofNat 16 n)).isSome).length = 43955 := by
  have families := countP_range_mul (fun n => (decodeWord (BitVec.ofNat 16 n)).isSome) 16 4096
  simp only [List.countP_eq_length_filter] at families
  rw [List.map_congr_left fun d1 hd => length_filter_family (List.mem_range.1 hd)] at families
  exact families.trans (by decide)

/-- Settles O5: each family has the count its low part gives, and the families make up the words. -/
theorem legalWordsPerFamily : Obligations.LegalWordsPerFamily := by
  unfold Obligations.LegalWordsPerFamily
  refine ⟨?_, ?_, length_filter_all, by rw [length_filter_isNone, length_filter_all]⟩
  · rw [List.map_congr_left fun d1 hd => length_filter_family (List.mem_range.1 hd)]
    decide
  · refine (List.map_congr_left (g := fun d1 => 4096 - legalInFamily d1) fun d1 hd => ?_).trans (by decide)
    rw [length_filter_isNone, length_filter_family (List.mem_range.1 hd)]

end Sys2Proof

/-! PROOF. The step on a word: what a decodable word at PC does, and that every other word faults (30_encoding.md R80,
R94). -/

namespace Sys2Proof.Machine

/-- Settles O8: the step rule of a decoded instruction, and the frame of advancing PC. -/
theorem stepRunsDecodedInstruction : Obligations.StepRunsDecodedInstruction := by
  unfold Obligations.StepRunsDecodedInstruction
  intro s i h
  have ⟨_, hpc, _⟩ := h
  exact ⟨step_of_about h, advance_pc_toNat hpc, s.setPc_onlyChanges (List.mem_singleton_self _) _⟩

/-- A step whose bytes at PC do not decode faults at decode. -/
theorem step_of_undecodable {s : State} (hrun : s.mode = .run) (hpc : s.pc.toNat ≤ 0xFFE)
    (hdec : decodeWord (wordAtPc s) = none) : step s = .fault (.unimplementedInstruction (wordAtPc s)) := by
  have faults : fetchInstr s = .fault (.unimplementedInstruction (wordAtPc s)) := by
    rcases fetchInstr_cases s with ⟨i, -, hi, -⟩ | ⟨-, -, hf⟩ | ⟨hout, -⟩
    · cases hdec.symm.trans hi
    · exact hf
    · omega
  rw [step, faults, andThen_fault, whenRunning, hrun]

/-- Settles O9: the words outside the map are those that do not decode, and of the family 0 only three decode. -/
theorem unimplementedWordFaults : Obligations.UnimplementedWordFaults := by
  unfold Obligations.UnimplementedWordFaults
  constructor
  · intro s hrun hpc hlegal
    rw [legalWord_eq_isSome, Option.isSome_eq_false_iff, Option.isNone_iff_eq_none] at hlegal
    exact step_of_undecodable hrun hpc hlegal
  · intro w hlow hnop hcls hret
    have family : (w.extractLsb' 12 4).toNat = 0 := by
      rw [nibble1_toNat]
      omega
    have undecoded : decodeFixed w = none := by
      rw [decodeFixed, if_neg hnop, if_neg hcls, if_neg hret]
    rw [legalWord_eq_isSome, decodeWord, family]
    exact congrArg Option.isSome undecoded

end Sys2Proof.Machine

/-! PROOF. Flow control: what a clear-screen, a jump, a call and a return leave, and that a return undoes a call
(40_flow_control.md R110 to R114). -/

namespace Sys2Proof.Machine

/-! ### Clear-screen and jumps -/

theorem pixelOn_blank {k : Nat} (h : k < 2048) : pixelOn (Vector.replicate 32 0) k = false := by
  rw [pixelOn_eq _ _ h, Vector.getElem_replicate]
  exact BitVec.getLsbD_zero

/-- Settles O16: CLS replaces the frame by the blank one and marks the change. -/
theorem clearScreen_turnsEveryPixelOff : Obligations.ClearScreen := by
  unfold Obligations.ClearScreen
  exact fun s => ⟨clearScreen true s, rfl, fun _ => pixelOn_blank, rfl, exec_onlyChanges (i := .cls) rfl⟩

theorem exec_jp (nnn : BitVec 12) (s : State) : exec (.jp nnn) s = .next (s.setPc (target nnn)) := rfl

/-- A jump to the address it was fetched from undoes the advance of PC. -/
theorem advance_setPc_target {s : State} {nnn : BitVec 12} (h : s.pc.toNat = nnn.toNat) :
    s.advance.setPc (target nnn) = s := by
  have hself : target nnn = s.pc := BitVec.eq_of_toNat_eq ((target_toNat nnn).trans h.symm)
  rw [hself]
  rfl

/-- Settles O18: the jump sets PC alone, and its own address is where PC stood before the fetch. -/
theorem jump : Obligations.Jump := by
  unfold Obligations.Jump
  refine fun nnn => ⟨fun s => ?_, fun s habout hself => ?_⟩
  · exact ⟨_, exec_jp nnn s, target_toNat nnn, exec_onlyChanges (exec_jp nnn s)⟩
  · rw [step_of_about habout, exec_jp, advance_setPc_target hself]

theorem exec_jpV0 (nnn : BitVec 12) (s : State) :
    exec (.jpV0 nnn) s = .next (s.setPc (zext16 (s.readReg 0) + target nnn)) := rfl

/-- Settles O20: the 16-bit sum of a byte and a 12-bit address does not wrap. -/
theorem jumpWithOffset : Obligations.JumpWithOffset := by
  unfold Obligations.JumpWithOffset
  exact fun nnn s => ⟨_, exec_jpV0 nnn s, jpV0_sum_toNat _ nnn, exec_onlyChanges (exec_jpV0 nnn s)⟩

/-! ### Call and return -/

section
variable {s : State} {k : Fin 16}

/-- A return with `k + 1` slots occupied goes to the address in slot `k`, which keeps its value. -/
theorem exec_ret_of_occupied (h : s.sp.val = k.val + 1) :
    exec .ret s = .next ((s.setStack s.stack k.castSucc).setPc s.stack[k.val]) := by
  rcases popPc_cases (encode .ret) s with ⟨_, pops⟩ | ⟨empty, -⟩
  · refine pops.trans ?_
    simp only [h, Nat.add_sub_cancel]
    rfl
  · omega

theorem exec_ret_of_empty (h : s.sp.val = 0) : exec .ret s = .fault (.stackUnderflow (encode .ret)) := by
  rcases popPc_cases (encode .ret) s with ⟨occupied, -⟩ | ⟨-, faults⟩
  · exact absurd h occupied
  · exact faults

theorem exec_call (nnn : BitVec 12) (s : State) : exec (.call nnn) s =
    andThen (pushPc (encode (.call nnn)) s) fun pushed => .next (pushed.setPc (target nnn)) := rfl

/-- A call with `k` slots occupied, `k` below 16, puts PC into slot `k`. -/
theorem exec_call_of_free (nnn : BitVec 12) (h : s.sp.val = k.val) :
    exec (.call nnn) s = .next ((s.setStack (s.stack.set k.val s.pc) k.succ).setPc (target nnn)) := by
  rcases pushPc_cases (encode (.call nnn)) s with ⟨_, pushes⟩ | ⟨full, -⟩
  · rw [exec_call, pushes, andThen_next]
    simp only [h]
    rfl
  · omega

theorem exec_call_of_full (nnn : BitVec 12) (h : s.sp.val = 16) :
    exec (.call nnn) s = .fault (.stackOverflow (encode (.call nnn))) := by
  rcases pushPc_cases (encode (.call nnn)) s with ⟨free, -⟩ | ⟨-, faults⟩
  · omega
  · rw [exec_call, faults, andThen_fault]

end

/-- Settles O17, by the two sides of the pop. -/
theorem returnPopsStack : Obligations.ReturnPopsStack := by
  unfold Obligations.ReturnPopsStack
  refine fun s => ⟨exec_ret_of_empty, fun k h => ?_⟩
  have hnext := exec_ret_of_occupied h
  exact ⟨_, hnext, rfl, rfl, rfl, exec_onlyChanges hnext⟩

/-- Settles O19, by the two sides of the push. -/
theorem callPushesReturnAddress : Obligations.CallPushesReturnAddress := by
  unfold Obligations.CallPushesReturnAddress
  refine fun nnn s => ⟨exec_call_of_full nnn, fun k h => ?_⟩
  have hnext := exec_call_of_free nnn h
  have others : ∀ j : Fin 16, j ≠ k → (s.stack.set k.val s.pc)[j.val] = s.stack[j.val] := fun j hj =>
    Vector.getElem_set_ne _ _ (Fin.val_ne_of_ne hj.symm)
  exact ⟨_, hnext, rfl, Vector.getElem_set_self _, others, target_toNat nnn, exec_onlyChanges hnext⟩

/-! ### The round trip -/

section
variable {s : State} {k : Fin 16}

theorem step_call {nnn : BitVec 12} (h : About s (.call nnn)) (hsp : s.sp.val = k.val) :
    step s = .next ((s.setStack (s.stack.set k.val (s.pc + 2)) k.succ).setPc (target nnn)) :=
  (step_of_about h).trans (exec_call_of_free (s := s.advance) nnn hsp)

theorem step_ret (h : About s .ret) (hsp : s.sp.val = k.val + 1) :
    step s = .next ((s.setStack s.stack k.castSucc).setPc s.stack[k.val]) :=
  (step_of_about h).trans (exec_ret_of_occupied (s := s.advance) hsp)

end

/-- A step stays inside the footprint of its instruction, where that names PC. -/
theorem step_onlyChanges {s t : State} {i : Instr} (h : About s i) (hpc : Elem.pc ∈ (writes i s.advance).elems)
    (hstep : step s = .next t) : OnlyChanges (writes i s.advance) s t :=
  (s.setPc_onlyChanges hpc _).trans (exec_onlyChanges ((step_of_about h).symm.trans hstep))

/-- Settles O21: the call leaves its return address in the slot that the return at its target pops. -/
theorem callThenReturn : Obligations.CallThenReturn := by
  unfold Obligations.CallThenReturn
  intro s nnn hcall hfree hinside hdecode
  have ⟨hrun, hpc, _⟩ := hcall
  obtain ⟨k, hk⟩ : ∃ k : Fin 16, s.sp.val = k.val := ⟨⟨_, hfree⟩, rfl⟩
  have called := step_call hcall hk
  have atReturn : About ((s.setStack (s.stack.set k.val (s.pc + 2)) k.succ).setPc (target nnn)) .ret :=
    ⟨hrun, (target_toNat nnn).trans_le hinside, hdecode⟩
  have returned := step_ret (k := k) atReturn rfl
  refine ⟨_, _, called, returned, ?_, Fin.ext hk.symm, ?_⟩
  · exact (congrArg BitVec.toNat (Vector.getElem_set_self _)).trans (advance_pc_toNat hpc)
  · exact (step_onlyChanges hcall (by simp [writes]) called).trans
      (step_onlyChanges atReturn (by simp [writes]) returned)

end Sys2Proof.Machine

/-! PROOF. Conditional skips: what each of the six executes, its frame and where it leaves PC (41_conditional_skip.md). -/

namespace Sys2Proof.Machine

/-! ### The skips that compare a register -/

theorem exec_seImm (x : Reg) (kk : Byte) (s : State) :
    exec (.seImm x kk) s = .next (skipIf (s.readReg x == kk) s) := rfl

theorem exec_sneImm (x : Reg) (kk : Byte) (s : State) :
    exec (.sneImm x kk) s = .next (skipIf (s.readReg x != kk) s) := rfl

theorem exec_seReg (x y : Reg) (s : State) :
    exec (.seReg x y) s = .next (skipIf (s.readReg x == s.readReg y) s) := rfl

theorem exec_sneReg (x y : Reg) (s : State) :
    exec (.sneReg x y) s = .next (skipIf (s.readReg x != s.readReg y) s) := rfl

/-! ### The skips on a key: the two sides of the index bound -/

theorem exec_skp (x : Reg) (s : State) : exec (.skp x) s = skipOnKey (encode (.skp x)) x true s := rfl

theorem exec_sknp (x : Reg) (s : State) : exec (.sknp x) s = skipOnKey (encode (.sknp x)) x false s := rfl

section
variable {x : Reg} {s : State}

theorem skipOnKey_of_le (op : Word) (wanted : Bool) (h : (s.readReg x).toNat ≤ 15) :
    skipOnKey op x wanted s = .next (skipIf (s.keyHeld (s.readReg x).toNat == wanted) s) :=
  if_neg (not_lt.2 h)

theorem skipOnKey_of_gt (op : Word) (wanted : Bool) (h : (s.readReg x).toNat > 15) :
    skipOnKey op x wanted s = .fault (.keyIndexOutOfRange op (s.readReg x).toNat) :=
  if_pos h

end

/-! ### What a skip does -/

theorem skipIf_pc (cond : Bool) (s : State) : (skipIf cond s).pc = if cond = true then s.pc + 2 else s.pc := by
  cases cond with
  | true => rfl
  | false => rfl

/-- An operation that ends in a skip goes on, changes PC alone, and adds 2 to it exactly when its condition holds. -/
theorem exists_next_of_skipIf {r : Result State} {s : State} {cond : Bool} {P : Prop} [Decidable P]
    (hr : r = .next (skipIf cond s)) (hP : cond = true ↔ P) :
    ∃ t, r = .next t ∧ OnlyChanges { elems := [.pc] } s t ∧ t.pc = if P then s.pc + 2 else s.pc :=
  ⟨_, hr, skipIf_onlyChanges s (by simp) cond, (skipIf_pc cond s).trans (if_congr hP rfl rfl)⟩

/-- Settles O22: both end in a skip on the comparison of V[x] with the literal. -/
theorem skipOnLiteral : Obligations.SkipOnLiteral := by
  unfold Obligations.SkipOnLiteral
  exact fun x kk s => ⟨exists_next_of_skipIf (exec_seImm x kk s) beq_iff_eq,
    exists_next_of_skipIf (exec_sneImm x kk s) bne_iff_ne⟩

/-- Settles O23: both end in a skip on the comparison of V[x] with V[y]. -/
theorem skipOnRegister : Obligations.SkipOnRegister := by
  unfold Obligations.SkipOnRegister
  exact fun x y s => ⟨exists_next_of_skipIf (exec_seReg x y s) beq_iff_eq,
    exists_next_of_skipIf (exec_sneReg x y s) bne_iff_ne⟩

/-- Settles O24, by the two sides of the index bound; the model's own operation has the name `skipOnKey`. -/
theorem skipOnKey_faultsOrSkips : Obligations.SkipOnKey := by
  unfold Obligations.SkipOnKey
  refine fun x s => ⟨fun beyond => ⟨?_, ?_⟩, fun inside => ⟨?_, ?_⟩⟩
  · exact (exec_skp x s).trans (skipOnKey_of_gt _ _ beyond)
  · exact (exec_sknp x s).trans (skipOnKey_of_gt _ _ beyond)
  · exact exists_next_of_skipIf ((exec_skp x s).trans (skipOnKey_of_le _ _ inside)) beq_iff_eq
  · exact exists_next_of_skipIf ((exec_sknp x s).trans (skipOnKey_of_le _ _ inside)) beq_iff_eq

end Sys2Proof.Machine

/-! PROOF. Register load, arithmetic, logic, shift and random: the state each executes to, the number each result and
flag is, and their frames (42_register_alu.md). -/

namespace Sys2Proof.Machine

/-! ### The state each instruction executes to -/

section
variable (x y : Reg) (kk : Byte) (s : State)

theorem exec_ldImm : exec (.ldImm x kk) s = .next (s.writeReg x kk) := rfl

theorem exec_addImm : exec (.addImm x kk) s = .next (s.writeReg x (s.readReg x + kk)) := rfl

theorem exec_ldReg : exec (.ldReg x y) s = .next (s.writeReg x (s.readReg y)) := rfl

theorem exec_orReg : exec (.orReg x y) s = .next (s.writeReg x (s.readReg x ||| s.readReg y)) := rfl

theorem exec_andReg : exec (.andReg x y) s = .next (s.writeReg x (s.readReg x &&& s.readReg y)) := rfl

theorem exec_xorReg : exec (.xorReg x y) s = .next (s.writeReg x (s.readReg x ^^^ s.readReg y)) := rfl

theorem exec_addReg : exec (.addReg x y) s =
    .next (writeFlagged x (carryFlag (s.readReg x) (s.readReg y)) (s.readReg x + s.readReg y) s) := rfl

theorem exec_subReg : exec (.subReg x y) s =
    .next (writeFlagged x (noBorrowFlag (s.readReg x) (s.readReg y)) (s.readReg x - s.readReg y) s) := rfl

theorem exec_subnReg : exec (.subnReg x y) s =
    .next (writeFlagged x (noBorrowFlag (s.readReg y) (s.readReg x)) (s.readReg y - s.readReg x) s) := rfl

theorem exec_shr : exec (.shr x y) s = .next (shiftRight false x y s) := rfl

theorem exec_shl : exec (.shl x y) s = .next (shiftLeft false x y s) := rfl

theorem exec_rnd : exec (.rnd x kk) s = randomMasked (Config.rnd s.freeCount) x kk s := rfl

theorem execWith_rnd (r : Byte) : execWith r (.rnd x kk) s = randomMasked r x kk s := rfl

end

/-! ### Results and flags as numbers -/

section
variable (a b : Byte)

theorem sub_toNat_eq_emod : ((a - b).toNat : Int) = ((a.toNat : Int) - b.toNat) % 256 := by
  rw [BitVec.toNat_sub]
  omega

theorem flagByte_toNat (c : Bool) : (flagByte c).toNat = c.toNat := by
  cases c with
  | true => rfl
  | false => rfl

theorem carryFlag_toNat : (carryFlag a b).toNat = if a.toNat + b.toNat > 255 then 1 else 0 := by
  rw [carryFlag, flagByte_toNat, Bool.toNat, Bool.cond_decide]

theorem noBorrowFlag_toNat : (noBorrowFlag a b).toNat = if a.toNat ≥ b.toNat then 1 else 0 := by
  rw [noBorrowFlag, flagByte_toNat, Bool.toNat, Bool.cond_decide]

theorem shiftRightOne_toNat : (shiftRightOne a).toNat = a.toNat / 2 := by
  rw [shiftRightOne, BitVec.toNat_ofNat]
  omega

theorem shiftLeftOne_toNat : (shiftLeftOne a).toNat = a.toNat * 2 % 256 := BitVec.toNat_ofNat _ _

theorem shiftedOutRight_toNat : (shiftedOutRight a).toNat = a.toNat % 2 := by
  rw [shiftedOutRight, flagByte_toNat, BitVec.getLsbD, Nat.toNat_testBit]
  omega

theorem shiftedOutLeft_toNat : (shiftedOutLeft a).toNat = a.toNat / 128 := by
  rw [shiftedOutLeft, flagByte_toNat, BitVec.getLsbD, Nat.toNat_testBit]
  omega

end

/-! ### What a flagged write, a shift and a masked random byte leave -/

theorem writeFlagged_readReg_same (x : Reg) (flag result : Byte) (s : State) :
    (writeFlagged x flag result s).readReg x = result :=
  State.readReg_writeReg_same _ x result

/-- With another destination, VF keeps the flag that is written first (42_register_alu.md R143). -/
theorem writeFlagged_readReg_flag {x : Reg} (hx : x ≠ vf) (flag result : Byte) (s : State) :
    (writeFlagged x flag result s).readReg vf = flag := by
  rw [writeFlagged_readReg, if_neg hx, if_pos rfl]

section
variable (usesVy : Bool) {x : Reg} (y : Reg) (s : State)

theorem shiftRight_result : ((shiftRight usesVy x y s).readReg x).toNat = (shiftOperand usesVy x y s).toNat / 2 := by
  rw [shiftRight, writeFlagged_readReg_same, shiftRightOne_toNat]

theorem shiftLeft_result :
    ((shiftLeft usesVy x y s).readReg x).toNat = (shiftOperand usesVy x y s).toNat * 2 % 256 := by
  rw [shiftLeft, writeFlagged_readReg_same, shiftLeftOne_toNat]

theorem shiftRight_flag (hx : x ≠ vf) :
    ((shiftRight usesVy x y s).readReg vf).toNat = (shiftOperand usesVy x y s).toNat % 2 := by
  rw [shiftRight, writeFlagged_readReg_flag hx, shiftedOutRight_toNat]

theorem shiftLeft_flag (hx : x ≠ vf) :
    ((shiftLeft usesVy x y s).readReg vf).toNat = (shiftOperand usesVy x y s).toNat / 128 := by
  rw [shiftLeft, writeFlagged_readReg_flag hx, shiftedOutLeft_toNat]

end

theorem randomMasked_next (r : Byte) (x : Reg) (kk : Byte) (s : State) :
    ∃ t, randomMasked r x kk s = .next t ∧ t.readReg x = (r &&& kk) ∧
      OnlyChanges { regs := [x], elems := [.free] } s t :=
  ⟨_, rfl, s.readReg_writeReg_same x _,
    (s.writeReg_onlyChanges (by simp) _).trans (State.takeFree_onlyChanges _ (by simp))⟩

/-! ### Loads, logic and the random byte -/

/-- Settles O25: each writes its operand into V[x]. -/
theorem loadLiteralAndCopy : Obligations.LoadLiteralAndCopy := by
  unfold Obligations.LoadLiteralAndCopy
  refine fun x y kk s => ⟨?_, ?_⟩
  · exact ⟨_, exec_ldImm x kk s, s.readReg_writeReg_same x _, exec_onlyChanges (exec_ldImm x kk s)⟩
  · exact ⟨_, exec_ldReg x y s, s.readReg_writeReg_same x _, exec_onlyChanges (exec_ldReg x y s)⟩

/-- Settles O26: the sum of two bytes wraps, and V[x] alone is written. -/
theorem addLiteral : Obligations.AddLiteral := by
  unfold Obligations.AddLiteral
  refine fun x kk s => ⟨_, exec_addImm x kk s, ?_, exec_onlyChanges (exec_addImm x kk s)⟩
  rw [State.readReg_writeReg_same, BitVec.toNat_add]

/-- Settles O27: each writes the bitwise operation on bytes into V[x]. -/
theorem bitwiseLogic : Obligations.BitwiseLogic := by
  unfold Obligations.BitwiseLogic
  refine fun x y s => ⟨?_, ?_, ?_⟩
  · refine ⟨_, exec_orReg x y s, exec_onlyChanges (exec_orReg x y s), fun b _ => ?_⟩
    rw [State.readReg_writeReg_same, BitVec.getLsbD_or]
  · refine ⟨_, exec_andReg x y s, exec_onlyChanges (exec_andReg x y s), fun b _ => ?_⟩
    rw [State.readReg_writeReg_same, BitVec.getLsbD_and]
  · refine ⟨_, exec_xorReg x y s, exec_onlyChanges (exec_xorReg x y s), fun b _ => ?_⟩
    rw [State.readReg_writeReg_same, BitVec.getLsbD_xor, Bool.bne_eq_xor]

/-- Settles O35: the rule for every byte, at the free byte of the machine and at the byte the host passes. -/
theorem randomByteMasked : Obligations.RandomByteMasked := by
  unfold Obligations.RandomByteMasked
  intro x kk s
  simp only [exec_rnd, execWith_rnd]
  exact ⟨randomMasked_next _ x kk s, fun r => randomMasked_next r x kk s⟩

/-! ### The flag writers -/

/-- Settles O28: the sum of two bytes wraps, and its carry is the flag. -/
theorem addRegisters : Obligations.AddRegisters := by
  unfold Obligations.AddRegisters
  refine fun x y s => ⟨_, exec_addReg x y s, ?_, fun hx => ?_, exec_onlyChanges (exec_addReg x y s)⟩
  · rw [writeFlagged_readReg_same, BitVec.toNat_add]
  · rw [writeFlagged_readReg_flag hx, carryFlag_toNat]

/-- Settles O29: the difference of two bytes is that of the integers modulo 256. -/
theorem subtractRegisters : Obligations.SubtractRegisters := by
  unfold Obligations.SubtractRegisters
  refine fun x y s => ⟨_, exec_subReg x y s, ?_, fun hx => ?_, exec_onlyChanges (exec_subReg x y s)⟩
  · rw [writeFlagged_readReg_same, sub_toNat_eq_emod]
  · rw [writeFlagged_readReg_flag hx, noBorrowFlag_toNat]

/-- Settles O30: the same difference with its operands exchanged, still into V[x]. -/
theorem reverseSubtractRegisters : Obligations.ReverseSubtractRegisters := by
  unfold Obligations.ReverseSubtractRegisters
  refine fun x y s => ⟨_, exec_subnReg x y s, ?_, fun hx => ?_, exec_onlyChanges (exec_subnReg x y s)⟩
  · rw [writeFlagged_readReg_same, sub_toNat_eq_emod]
  · rw [writeFlagged_readReg_flag hx, noBorrowFlag_toNat]

/-- Settles O31: the operand of the in-place form is V[x]; the model's own operation has the name `shiftRightOne`. -/
theorem shiftRightOne_inPlace : Obligations.ShiftRightOne := by
  unfold Obligations.ShiftRightOne
  exact fun x y s => ⟨_, exec_shr x y s, shiftRight_result false y s, shiftRight_flag false y s,
    exec_onlyChanges (exec_shr x y s)⟩

/-- Settles O32: the operand of the in-place form is V[x]; the model's own operation has the name `shiftLeftOne`. -/
theorem shiftLeftOne_inPlace : Obligations.ShiftLeftOne := by
  unfold Obligations.ShiftLeftOne
  exact fun x y s => ⟨_, exec_shl x y s, shiftLeft_result false y s, shiftLeft_flag false y s,
    exec_onlyChanges (exec_shl x y s)⟩

/-- Settles O34: the parameter chooses the operand of the result and of the flag, nothing else. -/
theorem shiftVariant : Obligations.ShiftVariant := by
  unfold Obligations.ShiftVariant
  refine ⟨rfl, fun x y s => ⟨exec_shr x y s, exec_shl x y s, shiftRight_result true y s, shiftLeft_result true y s,
    fun hx => ⟨shiftRight_flag true y s hx, shiftLeft_flag true y s hx⟩, ?_, ?_⟩⟩
  · exact writeFlagged_onlyChanges s (by simp) (by simp) _ _
  · exact writeFlagged_onlyChanges s (by simp) (by simp) _ _

/-! ### VF as destination and as second operand -/

/-- A frame of registers depends on which registers it names, not on how often. -/
theorem OnlyChanges.of_regs_subset {regs regs' : List Reg} {s t : State} (hsub : regs ⊆ regs')
    (h : OnlyChanges { regs } s t) : OnlyChanges { regs := regs' } s t := by
  obtain ⟨kept, rest⟩ := h
  exact ⟨fun x hx => kept x (mt (@hsub x) hx), rest⟩

/-- Settles O33: the five settled rules at `x = F`, where only their flag clause falls away, and three of them at
`y = F`. -/
theorem flagWritersIntoVf : Obligations.FlagWritersIntoVf := by
  unfold Obligations.FlagWritersIntoVf
  constructor
  · intro y s
    obtain ⟨a, ha, resultA, -, frameA⟩ := addRegisters vf y s
    obtain ⟨b, hb, resultB, -, frameB⟩ := subtractRegisters vf y s
    obtain ⟨c, hc, resultC, -, frameC⟩ := reverseSubtractRegisters vf y s
    obtain ⟨d, hd, resultD, -, frameD⟩ := shiftRightOne_inPlace vf y s
    obtain ⟨e, he, resultE, -, frameE⟩ := shiftLeftOne_inPlace vf y s
    have frames : ∀ t ∈ [a, b, c, d, e], OnlyChanges { regs := [vf, vf] } s t := by
      simp [frameA, frameB, frameC, frameD, frameE]
    exact ⟨a, b, c, d, e, ha, hb, hc, hd, he, resultA, resultB, resultC, resultD, resultE,
      fun t ht => (frames t ht).of_regs_subset (by simp)⟩
  · intro x s hx
    obtain ⟨a, ha, resultA, flagA, -⟩ := addRegisters x vf s
    obtain ⟨b, hb, -, flagB, -⟩ := subtractRegisters x vf s
    obtain ⟨c, hc, -, flagC, -⟩ := reverseSubtractRegisters x vf s
    exact ⟨a, b, c, ha, hb, hc, resultA, flagA hx, flagB hx, flagC hx⟩

end Sys2Proof.Machine

/-! PROOF. Index register and memory: what `Annn`, `Fx1E` and `Fx29` leave in I, what `Fx33` and `Fx55` leave in memory
and `Fx65` in the registers, and where the last three fault (43_index_memory.md R150 to R156). -/

namespace Sys2Proof.Machine

/-! ### The index register -/

theorem exec_ldI (nnn : BitVec 12) (s : State) : exec (.ldI nnn) s = .next (s.setI (target nnn)) := rfl

theorem exec_addI (x : Reg) (s : State) : exec (.addI x) s = .next (s.setI (s.i + zext16 (s.readReg x))) := rfl

theorem exec_ldGlyph (x : Reg) (s : State) : exec (.ldGlyph x) s = .next (s.setI (glyphAddress (s.readReg x))) := rfl

/-- Settles O37: each sets I alone; only the sum of `Fx1E` can wrap. -/
theorem indexRegister : Obligations.IndexRegister := by
  unfold Obligations.IndexRegister
  refine fun x nnn s => ⟨?_, ?_, ?_⟩
  · exact ⟨_, exec_ldI nnn s, target_toNat nnn, exec_onlyChanges (exec_ldI nnn s)⟩
  · refine ⟨_, exec_addI x s, ?_, exec_onlyChanges (exec_addI x s)⟩
    rw [State.setI_i, BitVec.toNat_add, zext16_toNat]
  · exact ⟨_, exec_ldGlyph x s, glyphAddress_toNat _, exec_onlyChanges (exec_ldGlyph x s)⟩

/-! ### The two sides of the address bound -/

/-- `Fx33` stores the three digits of V[x] from I on, or faults at the first address above 0xFFF. -/
theorem exec_ldBcd (x : Reg) (s : State) :
    exec (.ldBcd x) s =
      if s.i.toNat + 2 ≤ 0xFFF then .next (storeAll s.i.toNat (decimalDigits (s.readReg x)) s)
      else .fault (.memoryOutOfBounds (some (encode (.ldBcd x))) (max s.i.toNat 0x1000)) := by
  refine (memWriteMany_eq _ _ _ _).trans (if_congr ?_ rfl rfl)
  have nonempty : decimalDigits (s.readReg x) ≠ [] := List.cons_ne_nil _ _
  rw [or_iff_right nonempty, decimalDigits_length]
  omega

/-- `Fx65` loads V0 to Vx from I on, or faults at the first address above 0xFFF. -/
theorem exec_loadRegs (x : Reg) (s : State) :
    exec (.loadRegs x) s =
      if s.i.toNat + x.val ≤ 0xFFF then
        .next (loadRegsFrom ((List.range (x.val + 1)).map fun k => s.readByte (s.i.toNat + k)) s)
      else .fault (.memoryOutOfBounds (some (encode (.loadRegs x))) (max s.i.toNat 0x1000)) := by
  rw [exec, execLoadRegs, memReadMany_eq]
  by_cases inside : s.i.toNat + x.val ≤ 0xFFF
  · rw [if_pos inside, if_pos (by omega), andThen_next]
  · rw [if_neg inside, if_neg (by omega), andThen_fault]

/-! ### The bytes stored and the registers loaded -/

/-- The digits fit in their bytes (43_index_memory.md R153). -/
theorem decimalDigits_toNat (b : Byte) :
    (decimalDigits b).map BitVec.toNat = [b.toNat / 100, b.toNat / 10 % 10, b.toNat % 10] := by
  simp only [decimalDigits, List.map_cons, List.map_nil, BitVec.toNat_ofNat, List.cons.injEq, and_true]
  omega

/-- The byte `k` places after the start of a store is the byte `k` of those stored. -/
theorem storeAll_readByte_of_getElem {bs : List Byte} {k : Nat} {b : Byte} (h : bs[k]? = some b) (a : Nat)
    (s : State) :
    (storeAll a bs s).readByte (a + k) = b := by
  obtain ⟨hk, hb⟩ := List.getElem?_eq_some_iff.1 h
  rw [storeAll_readByte, if_pos (by omega), Nat.add_sub_cancel_left, List.getD_eq_getElem _ _ hk, hb]

/-- The byte `k` places after the start of the stored digits of `b` is digit `k` of `b`. -/
theorem storeAll_decimalDigits_readByte {b : Byte} {k n : Nat}
    (h : [b.toNat / 100, b.toNat / 10 % 10, b.toNat % 10][k]? = some n) (a : Nat) (s : State) :
    ((storeAll a (decimalDigits b) s).readByte (a + k)).toNat = n := by
  rw [← decimalDigits_toNat, List.getElem?_map] at h
  obtain ⟨digit, hdigit, hn⟩ := Option.map_eq_some_iff.1 h
  rw [storeAll_readByte_of_getElem hdigit, hn]

/-- A load of the bytes `f 0` to `f x` gives each register up to V[x] its byte and keeps the others. -/
theorem loadRegsFrom_range_readReg (f : Nat → Byte) (x k : Reg) (s : State) :
    (loadRegsFrom ((List.range (x.val + 1)).map f) s).readReg k = if k ≤ x then f k.val else s.readReg k := by
  rw [loadRegsFrom_readReg]
  by_cases hk : k ≤ x
  · have reached : k.val < x.val + 1 := Nat.lt_succ_of_le hk
    simp [hk, reached]
  · have above : x.val + 1 ≤ k.val := Nat.succ_le_of_lt (not_le.1 hk)
    rw [if_neg hk, List.getD_eq_default _ _ (by simpa using above)]

/-! ### Stores and loads -/

/-- Settles O38, by the two sides of the bound; the three digits are those of the byte, and they add up to it. -/
theorem storeDecimalDigits : Obligations.StoreDecimalDigits := by
  unfold Obligations.StoreDecimalDigits
  refine fun x s => ⟨fun inside => ?_, fun beyond => (exec_ldBcd x s).trans (if_neg (not_le.2 beyond))⟩
  have hnext := (exec_ldBcd x s).trans (if_pos inside)
  have hundreds := storeAll_decimalDigits_readByte (b := s.readReg x) (k := 0) rfl s.i.toNat s
  have tens := storeAll_decimalDigits_readByte (b := s.readReg x) (k := 1) rfl s.i.toNat s
  have ones := storeAll_decimalDigits_readByte (b := s.readReg x) (k := 2) rfl s.i.toNat s
  rw [Nat.add_zero] at hundreds
  exact ⟨_, hnext, hundreds, tens, ones, by omega, exec_onlyChanges hnext⟩

/-- Settles O39, by the two sides of the bound. -/
theorem storeRegisters : Obligations.StoreRegisters := by
  unfold Obligations.StoreRegisters
  refine fun x s => ⟨fun inside => ?_, fun beyond => (exec_storeRegs x s).trans (if_neg (not_le.2 beyond))⟩
  have hnext := (exec_storeRegs x s).trans (if_pos inside)
  exact ⟨_, hnext, fun _ hk => storeAll_regsUpTo_readByte hk _ s, exec_onlyChanges hnext⟩

/-- Settles O40, by the two sides of the bound. -/
theorem loadRegisters : Obligations.LoadRegisters := by
  unfold Obligations.LoadRegisters
  refine fun x s => ⟨fun inside => ?_, fun beyond => (exec_loadRegs x s).trans (if_neg (not_le.2 beyond))⟩
  have hnext := (exec_loadRegs x s).trans (if_pos inside)
  exact ⟨_, hnext, fun k => loadRegsFrom_range_readReg _ x k s, exec_onlyChanges hnext⟩

end Sys2Proof.Machine

/-! PROOF. Timers and keys: what `Fx07`, `Fx15` and `Fx18` move between V[x] and the timers, and what `Fx0A` does with a
key held and with none (44_timers_keys.md R160 to R163). -/

namespace Sys2Proof.Machine

/-! ### The timer instructions -/

section
variable (x : Reg) (s : State)

theorem exec_ldVxDt : exec (.ldVxDt x) s = .next (s.writeReg x s.dt) := rfl

theorem exec_ldDtVx : exec (.ldDtVx x) s = .next (s.setDt (s.readReg x)) := rfl

theorem exec_ldStVx : exec (.ldStVx x) s = .next (s.setSt (s.readReg x)) := rfl

theorem toneActive_iff : toneActive s = true ↔ s.st ≠ 0 := bne_iff_ne

end

/-- Settles O42: each is one update, and the tone level after `Fx18` is that of the ST it sets. -/
theorem timerInstructions : Obligations.TimerInstructions := by
  unfold Obligations.TimerInstructions
  refine fun x s => ⟨?_, ?_, ?_⟩
  · exact ⟨_, exec_ldVxDt x s, s.readReg_writeReg_same x _, exec_onlyChanges (exec_ldVxDt x s)⟩
  · exact ⟨_, exec_ldDtVx x s, s.setDt_dt _, exec_onlyChanges (exec_ldDtVx x s)⟩
  · exact ⟨_, exec_ldStVx x s, s.setSt_st _, toneActive_iff _, exec_onlyChanges (exec_ldStVx x s)⟩

/-! ### The blocking key read -/

section
variable {s : State} {k : Nat}

theorem lowestKey_eq_some (hk : k < 16) (held : s.keyHeld k = true) (below : ∀ j < k, s.keyHeld j = false) :
    lowestKey s = some k := by
  rcases lowestKeyFrom_cases s 0 16 with ⟨j, found, -, -, heldj, belowj⟩ | ⟨-, free⟩
  · rcases Nat.lt_trichotomy j k with lower | rfl | higher
    · exact absurd heldj (by simp [below j lower])
    · exact found
    · exact absurd held (by simp [belowj k k.zero_le higher])
  · exact absurd held (by simp [free k k.zero_le (by omega)])

theorem lowestKey_eq_none (free : ∀ k < 16, s.keyHeld k = false) : lowestKey s = none := by
  rcases lowestKeyFrom_cases s 0 16 with ⟨j, -, -, hj, held, -⟩ | ⟨notFound, -⟩
  · exact absurd held (by simp [free j (by omega)])
  · exact notFound

theorem exec_ldVxKey_of_lowest (x : Reg) (h : lowestKey s = some k) :
    exec (.ldVxKey x) s = .next (s.writeReg x (BitVec.ofNat 8 k)) := by
  rw [exec, execLdVxKey, h]

theorem exec_ldVxKey_of_none (x : Reg) (h : lowestKey s = none) :
    exec (.ldVxKey x) s = .next (s.setPc (s.pc - 2)) := by
  rw [exec, execLdVxKey, h]

end

/-- Taking PC back by 2 undoes its advance. -/
theorem advance_setPc_sub (s : State) : s.advance.setPc (s.advance.pc - 2) = s := by
  have back : s.advance.pc - 2 = s.pc := BitVec.add_sub_cancel s.pc 2
  rw [back]
  rfl

/-- Settles O43, by the outcome of the key scan; a step with no key held advances PC and takes it back. -/
theorem blockingKeyRead : Obligations.BlockingKeyRead := by
  unfold Obligations.BlockingKeyRead
  refine fun x s => ⟨fun k hk held below => ?_, fun free => ⟨?_, fun habout => ?_⟩⟩
  · refine ⟨_, exec_ldVxKey_of_lowest x (lowestKey_eq_some hk held below), ?_, s.writeReg_onlyChanges (by simp) _⟩
    rw [State.readReg_writeReg_same, BitVec.toNat_ofNat]
    omega
  · exact ⟨_, exec_ldVxKey_of_none x (lowestKey_eq_none free), s.setPc_pc _, s.setPc_onlyChanges (by simp) _⟩
  · have noKey : lowestKey s.advance = none := lowestKey_eq_none free
    rw [step_of_about habout, exec_ldVxKey_of_none x noKey, advance_setPc_sub]

end Sys2Proof.Machine

/-! PROOF. Draw: the sprite at I, the pixels it covers, and what one draw and two draws in a row leave in the framebuffer
and in VF (45_draw.md R170 to R172). -/

namespace Sys2Proof.Machine

/-! ### The sprite and the pixels it covers -/

/-- The `n` bytes from I on, top row first (45_draw.md R170). -/
def spriteBytes (n : Nat) (s : State) : List Byte := (List.range n).map fun row => s.readByte (s.i.toNat + row)

section
variable {n : Nat} {s : State}

@[simp] theorem spriteBytes_length : (spriteBytes n s).length = n := by
  simp [spriteBytes]

theorem spriteBytes_getD {row : Nat} (h : row < n) : (spriteBytes n s).getD row 0 = s.readByte (s.i.toNat + row) := by
  simp [spriteBytes, h]

variable {x y : Reg} {k : Nat}

/-- The covered pixels are those the draw toggles. -/
theorem spriteCovers_iff_mem : spriteCovers x y n s k = true ↔
    k ∈ spritePixels (s.readReg x).toNat (s.readReg y).toNat 0 (spriteBytes n s) := by
  simp only [spriteCovers, List.any_eq_true, List.mem_range, Bool.and_eq_true, decide_eq_true_eq,
    mem_spritePixels, spriteBytes_length, Nat.zero_add]
  constructor
  · rintro ⟨row, hrow, bit, hbit, set, rfl⟩
    exact ⟨row, bit, hrow, hbit, by rwa [spriteBytes_getD hrow], rfl⟩
  · rintro ⟨row, bit, hrow, hbit, set, rfl⟩
    exact ⟨row, hrow, bit, hbit, by rwa [spriteBytes_getD hrow] at set, rfl⟩

theorem spriteCovers_lt (h : spriteCovers x y n s k = true) : k < 2048 := spritePixels_lt (spriteCovers_iff_mem.1 h)

/-- Which pixels a sprite covers depends on its two coordinates, on I and on memory alone. -/
theorem spriteCovers_congr {t : State} (hx : t.readReg x = s.readReg x) (hy : t.readReg y = s.readReg y)
    (hi : t.i = s.i) (hbytes : ∀ a, t.readByte a = s.readByte a) :
    spriteCovers x y n t k = spriteCovers x y n s k := by
  simp only [spriteCovers, hx, hy, hi, hbytes]

/-! ### One draw -/

theorem showSprite_pixelOn (hn : n ≤ 32) (hk : k < 2048) :
    pixelOn (showSprite x y (spriteBytes n s) s).fb k = (pixelOn s.fb k ^^ spriteCovers x y n s k) := by
  obtain ⟨pixels, -⟩ := drawSprite_spec (s.readReg x).toNat (s.readReg y).toNat (spriteBytes n s) s.fb (by simpa)
  refine (pixels k hk).trans ?_
  simp only [← spriteCovers_iff_mem, Bool.decide_eq_true]

theorem drawSprite_collides_iff (hn : n ≤ 32) :
    (drawSprite (s.readReg x).toNat (s.readReg y).toNat (spriteBytes n s) s.fb).2 = true ↔
      ∃ k < 2048, spriteCovers x y n s k = true ∧ pixelOn s.fb k = true := by
  obtain ⟨-, collision⟩ := drawSprite_spec (s.readReg x).toNat (s.readReg y).toNat (spriteBytes n s) s.fb (by simpa)
  simp only [collision, List.any_eq_true, ← spriteCovers_iff_mem]
  exact exists_congr fun k => ⟨fun h => ⟨spriteCovers_lt h.1, h⟩, fun h => h.2⟩

end

/-- `Dxyn` shows the sprite at I, or faults at the first address above 0xFFF. -/
theorem exec_drw (x y : Reg) (n : BitVec 4) (s : State) :
    exec (.drw x y n) s =
      if n.toNat = 0 ∨ s.i.toNat + n.toNat - 1 ≤ 0xFFF then .next (showSprite x y (spriteBytes n.toNat s) s)
      else .fault (.memoryOutOfBounds (some (encode (.drw x y n))) (max s.i.toNat 0x1000)) := by
  rw [exec, execDrw, memReadMany_eq]
  by_cases inside : n.toNat = 0 ∨ s.i.toNat + n.toNat - 1 ≤ 0xFFF
  · rw [if_pos inside, if_pos (by omega), andThen_next, spriteBytes]
  · rw [if_neg inside, if_neg (by omega), andThen_fault]

/-- Settles O44, by the two sides of the address bound; the flag is that of a covered pixel that was on. The model's own
operation has the name `drawSprite`. -/
theorem drawSprite_invertsCoveredPixels : Obligations.DrawSprite := by
  unfold Obligations.DrawSprite
  refine fun x y n s => ⟨fun inside => ?_, fun oneRow beyond => (exec_drw x y n s).trans (if_neg (by omega))⟩
  have hn : n.toNat ≤ 32 := by omega
  have hnext := (exec_drw x y n s).trans (if_pos inside)
  refine ⟨_, hnext, fun k hk => ?_, fun hit => ?_, fun missed => ?_, rfl, exec_onlyChanges hnext⟩
  · rw [showSprite_pixelOn hn hk, Bool.bne_eq_xor]
  · rw [showSprite_readReg_vf, (drawSprite_collides_iff hn).2 hit]
    rfl
  · have noHit : ¬ ∃ k < 2048, spriteCovers x y n.toNat s k = true ∧ pixelOn s.fb k = true := by
      rintro ⟨k, hk, covered, on⟩
      simp [missed k hk covered] at on
    rw [showSprite_readReg_vf, Bool.eq_false_iff.2 (mt (drawSprite_collides_iff hn).1 noHit)]
    rfl

/-! ### Two draws in a row -/

/-- Settles O45: the first draw moves neither the sprite nor its place, so the second inverts the same pixels again and
hits those that were off. -/
theorem drawTwiceRestores : Obligations.DrawTwiceRestores := by
  unfold Obligations.DrawTwiceRestores
  intro x y n s hx hy inside
  obtain ⟨t, ht, firstPixels, -, -, -, regs, bytes, i, -⟩ := (drawSprite_invertsCoveredPixels x y n s).1 inside
  have sameI : t.i = s.i := i (by simp)
  have samePlace : ∀ k, spriteCovers x y n.toNat t k = spriteCovers x y n.toNat s k := fun k =>
    spriteCovers_congr (regs x (by simpa)) (regs y (by simpa)) sameI fun a => bytes a (by simp)
  obtain ⟨u, hu, secondPixels, hit, missed, -⟩ :=
    (drawSprite_invertsCoveredPixels x y n t).1 (by rwa [sameI])
  have onAfterFirst : ∀ k < 2048, spriteCovers x y n.toNat s k = true → pixelOn t.fb k = !pixelOn s.fb k :=
    fun k hk covered => by rw [firstPixels k hk, covered, Bool.bne_true]
  refine ⟨t, u, ht, hu, frame_ext fun k hk => ?_, ?_⟩
  · rw [secondPixels k hk, firstPixels k hk, samePlace]
    simp
  · split
    · next h =>
      obtain ⟨k, covered, off⟩ := h
      exact hit ⟨k, k.isLt, by rwa [samePlace], by rw [onAfterFirst k k.isLt covered, off]; rfl⟩
    · next h =>
      refine missed fun k hk covered => ?_
      rw [samePlace] at covered
      have on : pixelOn s.fb k = true := eq_true_of_ne_false fun off => h ⟨⟨k, hk⟩, covered, off⟩
      rw [onAfterFirst k hk covered, on]
      rfl

/-! ### Coordinates -/

theorem drawBits_mod_column (vx py : Nat) (b : Byte) (bit n : Nat) (p : Frame × Bool) :
    drawBits (vx % 64) py b bit n p = drawBits vx py b bit n p := by
  induction n generalizing bit p with
  | zero => rfl
  | succ n ih => rw [drawBits, drawBits, Nat.mod_add_mod, ih]

theorem drawRows_mod_coordinates (vx vy row : Nat) (bs : List Byte) (p : Frame × Bool) :
    drawRows (vx % 64) (vy % 32) row bs p = drawRows vx vy row bs p := by
  induction bs generalizing row p with
  | nil => rfl
  | cons b bs ih => rw [drawRows, drawRows, Nat.mod_add_mod, drawBits_mod_column, ih]

/-- Settles O46: each row and each bit of a row wraps its own coordinate. -/
theorem drawCoordinatesWrap : Obligations.DrawCoordinatesWrap := by
  unfold Obligations.DrawCoordinatesWrap
  exact fun vx vy sprite f => (drawRows_mod_coordinates vx vy 0 sprite (f, false)).symm

end Sys2Proof.Machine

/-! PROOF. The no-op: its one word, and a step of it (46_nop.md R180). -/

namespace Sys2Proof.Machine

theorem exec_nop (s : State) : exec .nop s = .next s := rfl

/-- A step of the no-op is the advance of PC alone. -/
theorem step_nop {s : State} (h : About s .nop) : step s = .next s.advance := (step_of_about h).trans (exec_nop _)

/-- Settles O47: the word is the encoding of the instruction it decodes to, and the step is the advance of PC. -/
theorem noOperation : Obligations.NoOperation := by
  unfold Obligations.NoOperation
  refine ⟨fun w h => (encodeOfDecodeIsIdentity w .nop h).symm, exec_nop, fun s h => ?_⟩
  obtain ⟨-, pc, frame⟩ := stepRunsDecodedInstruction s .nop h
  exact ⟨s.advance, step_nop h, pc, frame⟩

end Sys2Proof.Machine

/-! PROOF. The step as a whole: when it faults and with what, what it leaves alone, and what the random byte can reach
(60_exceptions.md R211, R215, 47_host_operations.md R187, R189). -/

namespace Sys2Proof.Machine

/-! ### Which instruction faults when -/

/-- The answer of an operation whose one fault, if it has one, is the given one: that fault, else a next state. -/
def FaultsAs : Option Fault → Result State → Prop
  | some f, r => r = .fault f
  | none, r => ∃ t, r = .next t

section
variable {r : Result State} {expected : Option Fault} {f : Fault}

/-- An operation with one check faults when the check fails, and goes on otherwise. -/
theorem FaultsAs.of_check {P : Prop} [Decidable P] (fails : P → r = .fault f) (passes : ¬P → ∃ t, r = .next t) :
    FaultsAs (if P then some f else none) r := by
  by_cases h : P
  · rw [if_pos h]
    exact fails h
  · rw [if_neg h]
    exact passes h

theorem FaultsAs.eq_fault_iff (h : FaultsAs expected r) : r = .fault f ↔ expected = some f := by
  cases expected with
  | some g =>
    obtain rfl : r = .fault g := h
    simp
  | none =>
    obtain ⟨t, rfl⟩ := h
    simp

theorem FaultsAs.ne_refused (h : FaultsAs expected r) (e : Refusal) : r ≠ .refused e := by
  cases expected with
  | some g =>
    obtain rfl : r = .fault g := h
    simp
  | none =>
    obtain ⟨t, rfl⟩ := h
    simp

/-- The accesses of an instruction that is written as a bound on addresses fault beyond the bound. -/
theorem FaultsAs.of_bound {P Q : Prop} [Decidable P] [Decidable Q] {t : State}
    (h : r = if Q then .next t else .fault f) (bound : P ↔ ¬Q) : FaultsAs (if P then some f else none) r :=
  .of_check (fun beyond => h.trans (if_neg (bound.1 beyond)))
    fun inside => ⟨t, h.trans (if_pos (not_not.1 (mt bound.2 inside)))⟩

theorem skipOnKey_faultsAs (op : Word) (x : Reg) (wanted : Bool) (s : State) :
    FaultsAs (if (s.readReg x).toNat > 15 then some (.keyIndexOutOfRange op (s.readReg x).toNat) else none)
      (skipOnKey op x wanted s) :=
  .of_check (skipOnKey_of_gt op wanted) fun inside => ⟨_, skipOnKey_of_le op wanted (not_lt.1 inside)⟩

end

theorem exec_ret_faultsAs (s : State) : FaultsAs (faultOf .ret s) (exec .ret s) := by
  refine .of_check exec_ret_of_empty fun occupied => ?_
  rcases popPc_cases (encode .ret) s with ⟨_, pops⟩ | ⟨empty, -⟩
  · exact ⟨_, pops⟩
  · exact absurd empty occupied

theorem exec_call_faultsAs (nnn : BitVec 12) (s : State) : FaultsAs (faultOf (.call nnn) s) (exec (.call nnn) s) := by
  refine .of_check (exec_call_of_full nnn) fun notFull => ?_
  have free : s.sp.val < 16 := by omega
  exact ⟨_, exec_call_of_free (k := ⟨s.sp.val, free⟩) nnn rfl⟩

/-- The key read goes on whatever the scan finds. -/
theorem exec_ldVxKey_faultsAs (x : Reg) (s : State) : FaultsAs none (exec (.ldVxKey x) s) := by
  cases scan : lowestKey s with
  | some k => exact ⟨_, exec_ldVxKey_of_lowest x scan⟩
  | none => exact ⟨_, exec_ldVxKey_of_none x scan⟩

/-- Every instruction faults exactly as its rule says and is never refused. -/
theorem exec_faultsAs (i : Instr) (s : State) : FaultsAs (faultOf i s) (exec i s) := by
  cases i with
  | ret => exact exec_ret_faultsAs s
  | call nnn => exact exec_call_faultsAs nnn s
  | skp x => exact skipOnKey_faultsAs _ x true s
  | sknp x => exact skipOnKey_faultsAs _ x false s
  | drw x y n => exact .of_bound (exec_drw x y n s) (by omega)
  | ldBcd x => exact .of_bound (exec_ldBcd x s) (by omega)
  | storeRegs x => exact .of_bound (exec_storeRegs x s) (by omega)
  | loadRegs x => exact .of_bound (exec_loadRegs x s) (by omega)
  | ldVxKey x => exact exec_ldVxKey_faultsAs x s
  | _ => exact ⟨_, rfl⟩

/-- Settles O11, by the two sides of each instruction's check. -/
theorem instructionFaultsExactlyWhen : Obligations.InstructionFaultsExactlyWhen := by
  unfold Obligations.InstructionFaultsExactlyWhen
  intro i s
  have answer := exec_faultsAs i s
  cases expected : faultOf i s with
  | some f => exact answer.eq_fault_iff.2 expected
  | none =>
    rw [expected] at answer
    exact answer

/-! ### Which step faults when -/

theorem whenRunning_of_run {α : Type} {s : State} (hrun : s.mode = .run) (r : Result α) : whenRunning s r = r := by
  rw [whenRunning, hrun]

/-- A step with PC beyond the last word faults at the fetch. -/
theorem step_of_beyond {s : State} (hrun : s.mode = .run) (beyond : s.pc.toNat > 0xFFE) :
    step s = .fault (.memoryOutOfBounds none (max s.pc.toNat 0x1000)) := by
  rw [step, whenRunning_of_run hrun, fetchInstr, fetch_eq, if_neg (not_le.2 beyond), andThen_fault, andThen_fault]

/-- Settles O10, by the three phases: fetch, decode, and the check of the decoded instruction. -/
theorem stepFaultsInOrder : Obligations.StepFaultsInOrder := by
  unfold Obligations.StepFaultsInOrder
  intro s f hrun
  by_cases beyond : s.pc.toNat > 0xFFE
  · simp only [if_pos beyond, step_of_beyond hrun beyond, Host.Outcome.fault.injEq, eq_comm]
  · rw [if_neg beyond]
    cases hdec : decodeWord (wordAtPc s) with
    | none => simp only [step_of_undecodable hrun (not_lt.1 beyond) hdec, Host.Outcome.fault.injEq, eq_comm]
    | some i =>
      rw [step_of_about ⟨hrun, not_lt.1 beyond, hdec⟩]
      exact (exec_faultsAs i s.advance).eq_fault_iff

/-! ### What a step leaves alone -/

section
variable {i : Instr} {s t : State}

theorem exec_key (h : exec i s = .next t) : t.key = s.key := by
  obtain ⟨-, -, -, -, -, -, key, -⟩ := exec_onlyChanges h
  refine key ?_
  cases i <;> simp [writes]

/-- Only `Fx15` writes DT (44_timers_keys.md R161). -/
theorem exec_dt_cases (h : exec i s = .next t) : t.dt = s.dt ∨ ∃ x, i = .ldDtVx x ∧ t.dt = s.readReg x := by
  cases i with
  | ldDtVx x =>
    cases h
    exact .inr ⟨x, rfl, s.setDt_dt _⟩
  | _ =>
    obtain ⟨-, -, -, -, -, -, -, dt, -⟩ := exec_onlyChanges h
    exact .inl (dt (by simp [writes]))

/-- Only `Fx18` writes ST (44_timers_keys.md R162). -/
theorem exec_st_cases (h : exec i s = .next t) : t.st = s.st ∨ ∃ x, i = .ldStVx x ∧ t.st = s.readReg x := by
  cases i with
  | ldStVx x =>
    cases h
    exact .inr ⟨x, rfl, s.setSt_st _⟩
  | _ =>
    obtain ⟨-, -, -, -, -, -, -, -, st, -⟩ := exec_onlyChanges h
    exact .inl (st (by simp [writes]))

end

/-- Settles O14: the advance of PC touches neither keys nor timers, and one instruction writes each timer. -/
theorem stepLeavesKeysAndTimers : Obligations.StepLeavesKeysAndTimers := by
  unfold Obligations.StepLeavesKeysAndTimers
  intro s t h
  obtain ⟨i, -, -, hdec, hexec⟩ := step_eq_next h
  refine ⟨exec_key (s := s.advance) hexec, fun changed => ?_, fun changed => ?_⟩
  · obtain ⟨x, rfl, copied⟩ := (exec_dt_cases hexec).resolve_left changed
    exact ⟨x, hdec, copied⟩
  · obtain ⟨x, rfl, copied⟩ := (exec_st_cases hexec).resolve_left changed
    exact ⟨x, hdec, copied⟩

/-! ### The random byte -/

section
variable {i : Instr} {s : State}

/-- An instruction comes out of the fetch exactly when PC lies inside memory and the word there decodes to it. -/
theorem fetchInstr_eq_next : fetchInstr s = .next i ↔ s.pc.toNat ≤ 0xFFE ∧ decodeWord (wordAtPc s) = some i := by
  rcases fetchInstr_cases s with ⟨j, hpc, hj, hf⟩ | ⟨-, hn, hf⟩ | ⟨hout, hf⟩
  · simp [hf, hpc, wordAtPc, hj]
  · simp [hf, wordAtPc, hn]
  · simp [hf, hout]

/-- `Cxkk` masks the random byte into its destination; every other instruction executes as it does without one. -/
theorem execWith_cases (r : Byte) (i : Instr) (s : State) :
    (∃ x kk, i = .rnd x kk ∧ execWith r i s = randomMasked r x kk s) ∨ execWith r i s = exec i s := by
  cases i with
  | rnd x kk => exact .inl ⟨x, kk, rfl, rfl⟩
  | _ => exact .inr rfl

theorem stepWith_of_about (h : About s i) (r : Byte) : stepWith r s = execWith r i s.advance := by
  have ⟨hrun, _⟩ := h
  rw [stepWith, whenRunning_of_run hrun, fetchInstr_of_about h, andThen_next]

theorem stepWith_eq_of_ne_rnd (h : ∀ x kk, decodeWord (wordAtPc s) ≠ some (.rnd x kk)) (a b : Byte) :
    stepWith a s = stepWith b s := by
  unfold stepWith
  cases fetched : fetchInstr s with
  | next i =>
    obtain ⟨-, hdec⟩ := fetchInstr_eq_next.1 fetched
    have ignored (r : Byte) : execWith r i s.advance = exec i s.advance := by
      rcases execWith_cases r i s.advance with ⟨x, kk, rfl, -⟩ | same
      · exact absurd hdec (h x kk)
      · exact same
    rw [andThen_next, andThen_next, ignored, ignored]
  | fault f => rfl
  | refused e => rfl

end

theorem State.writeReg_writeReg_same (s : State) (x : Reg) (a b : Byte) :
    (s.writeReg x a).writeReg x b = s.writeReg x b := by
  simp [State.writeReg]

/-- Two masked random bytes leave states that differ in the destination alone: the second is the first with the
destination written again. -/
theorem randomMasked_onlyChanges (a b : Byte) (x : Reg) (kk : Byte) (s : State) :
    ∃ t u, randomMasked a x kk s = .next t ∧ randomMasked b x kk s = .next u ∧ OnlyChanges { regs := [x] } t u := by
  refine ⟨_, _, rfl, rfl, ?_⟩
  have again := State.writeReg_onlyChanges (s.writeReg x (a &&& kk)).takeFree (List.mem_singleton_self x) (b &&& kk)
    (w := { regs := [x] })
  rwa [show (s.writeReg x (a &&& kk)).takeFree.writeReg x (b &&& kk) = (s.writeReg x (b &&& kk)).takeFree from
    congrArg State.takeFree (s.writeReg_writeReg_same x _ _)] at again

/-- Settles O36: the byte enters at the execution of `Cxkk` alone, and there it goes into the destination. -/
theorem randomByteReadOnlyByRnd : Obligations.RandomByteReadOnlyByRnd := by
  unfold Obligations.RandomByteReadOnlyByRnd
  refine fun a b s => ⟨fun notRnd => stepWith_eq_of_ne_rnd notRnd a b, fun x kk habout => ?_⟩
  rw [stepWith_of_about habout, stepWith_of_about habout]
  exact randomMasked_onlyChanges a b x kk s.advance

end Sys2Proof.Machine

/-! PROOF. The host boundary: which operation is admitted when, what each of the nine does to the state, and what a fault
leaves (47_host_operations.md R185 to R202, 60_exceptions.md R214, R217). -/

namespace Sys2Proof.Machine

/-! ### Admission: the rules of `perform` and `afterOp` -/

section
variable {op : HostOp} {s t : State}

theorem admitted_run (op : HostOp) : admitted op .run = true := by
  cases op <;> rfl

theorem admitted_uninit_iff : admitted op .uninit = true ↔ op = .construct ∨ op = .reset := by
  cases op <;> simp [admitted]

theorem admitted_faulted_iff : admitted op .faulted = true ↔
    op = .construct ∨ op = .reset ∨ op = .framebuffer ∨ op = .soundActive := by
  cases op <;> simp [admitted]

theorem perform_of_admitted (h : admitted op s.mode = true) : perform op s = effect op s := if_pos h

theorem perform_of_not_admitted (h : ¬ admitted op s.mode = true) : perform op s = .refused (refusalIn s.mode) := if_neg h

/-- In mode `RUN` every operation is admitted. -/
theorem perform_of_run (h : s.mode = .run) (op : HostOp) : perform op s = effect op s :=
  perform_of_admitted (by rw [h, admitted_run])

theorem perform_eq_next : perform op s = .next t ↔ admitted op s.mode = true ∧ effect op s = .next t := by
  by_cases h : admitted op s.mode = true
  · simp [perform_of_admitted h, h]
  · simp [perform_of_not_admitted h, h]

theorem perform_eq_fault {f : Fault} : perform op s = .fault f ↔ admitted op s.mode = true ∧ effect op s = .fault f := by
  by_cases h : admitted op s.mode = true
  · simp [perform_of_admitted h, h]
  · simp [perform_of_not_admitted h, h]

/-- The executor is left in the next state, or in the state that a fault leaves (47_host_operations.md R188). -/
theorem afterOp_eq_some :
    afterOp op s = some t ↔ perform op s = .next t ∨ ∃ f, perform op s = .fault f ∧ t = latch f s := by
  unfold afterOp
  cases perform op s <;> simp [eq_comm]

end

/-! ### Refusals in mode `RUN`: only a load on a used machine -/

section
variable {s : State} {e : Refusal}

theorem fetchInstr_ne_refused (s : State) (e : Refusal) : fetchInstr s ≠ .refused e := by
  rcases fetchInstr_cases s with ⟨i, -, -, hf⟩ | ⟨-, -, hf⟩ | ⟨-, hf⟩ <;> simp [hf]

theorem execWith_ne_refused (r : Byte) (i : Instr) (s : State) (e : Refusal) : execWith r i s ≠ .refused e := by
  rcases execWith_cases r i s with ⟨x, kk, -, masked⟩ | same
  · simp [masked, randomMasked]
  · exact same ▸ (exec_faultsAs i s).ne_refused e

theorem stepWith_ne_refused (h : s.mode = .run) (r : Byte) (e : Refusal) : stepWith r s ≠ .refused e := by
  rw [stepWith, whenRunning_of_run h, Ne, andThen_eq_refused]
  rintro (refused | ⟨i, -, refused⟩)
  · exact fetchInstr_ne_refused s e refused
  · exact execWith_ne_refused r i s.advance e refused

theorem setKey_ne_refused (k : Nat) (held : Bool) (s : State) (e : Refusal) : setKey k held s ≠ .refused e := by
  unfold setKey
  split <;> exact fun h => by cases h

theorem loadImage_ne_refused (bytes : List Byte) (s : State) (e : Refusal) : loadImage bytes s ≠ .refused e := by
  unfold loadImage
  split <;> exact fun h => by cases h

theorem loadProgram_of_used (h : untouched s = false) (bytes : List Byte) :
    loadProgram bytes s = .refused .loadOnUsedMachine := by
  rw [loadProgram, h, if_neg Bool.false_ne_true]

theorem loadProgram_of_untouched (h : untouched s = true) (bytes : List Byte) :
    loadProgram bytes s = loadImage bytes s := by
  rw [loadProgram, h, if_pos rfl]

theorem effect_eq_refused {op : HostOp} (hrun : s.mode = .run) (h : effect op s = .refused e) :
    ∃ bytes, op = .loadProgram bytes ∧ untouched s = false := by
  cases op with
  | loadProgram bytes =>
    cases fresh : untouched s with
    | true => exact absurd ((loadProgram_of_untouched fresh bytes).symm.trans h) (loadImage_ne_refused bytes s e)
    | false => exact ⟨bytes, rfl, rfl⟩
  | step r => exact absurd h (stepWith_ne_refused hrun r e)
  | setKey k held => exact absurd h (setKey_ne_refused k held s e)
  | _ => cases h

end

/-- Settles O54: outside `RUN` by the table of admissions, in `RUN` by what each operation can answer. -/
theorem refusedOperations : Obligations.RefusedOperations := by
  unfold Obligations.RefusedOperations
  refine fun op s => ⟨fun uninit notConstruct notReset => ?_, fun faulted notConstruct notReset notFrame notSound => ?_,
    fun e refused hrun => ?_⟩
  · rw [perform_of_not_admitted, uninit, refusalIn]
    rw [uninit, admitted_uninit_iff]
    simp [notConstruct, notReset]
  · rw [perform_of_not_admitted, faulted, refusalIn]
    rw [faulted, admitted_faulted_iff]
    simp [notConstruct, notReset, notFrame, notSound]
  · exact effect_eq_refused hrun ((perform_of_run hrun op).symm.trans refused)

/-- Settles O56: outside `RUN` by the guard of the step; in `RUN` it is the host's step at the free byte, which is never
refused. -/
theorem stepModes : Obligations.StepModes := by
  unfold Obligations.StepModes
  refine fun s => ⟨fun uninit => ?_, fun faulted => ?_, fun hrun => ?_, fun hrun e => ?_⟩
  · rw [step, whenRunning, uninit]
  · rw [step, whenRunning, faulted]
  · rw [perform_of_run hrun, step_eq_stepWith]
    rfl
  · rw [step_eq_stepWith]
    exact stepWith_ne_refused hrun _ e

/-! ### Faults are latched -/

theorem latch_flt (f : Fault) (s : State) : (latch f s).flt = some f := rfl

theorem latch_mode (f : Fault) (s : State) : (latch f s).mode = .faulted := rfl

/-- In mode `FAULTED` the two observations are all that is admitted beside a reset, and they change nothing. -/
theorem afterOp_of_faulted {op : HostOp} {s t : State} (hmode : s.mode = .faulted) (notReset : op ≠ .reset)
    (notConstruct : op ≠ .construct) (h : afterOp op s = some t) : t = s := by
  have observation (hadm : admitted op s.mode = true) : op = .framebuffer ∨ op = .soundActive := by
    rw [hmode, admitted_faulted_iff] at hadm
    simpa [notReset, notConstruct] using hadm
  rcases afterOp_eq_some.1 h with next | ⟨f, fault, -⟩
  · obtain ⟨hadm, heffect⟩ := perform_eq_next.1 next
    rcases observation hadm with rfl | rfl <;> cases heffect <;> rfl
  · obtain ⟨hadm, heffect⟩ := perform_eq_fault.1 fault
    rcases observation hadm with rfl | rfl <;> cases heffect

/-- Settles O55: the state a fault leaves is the latched one, and in mode `FAULTED` nothing but a reset changes it. -/
theorem faultIsLatched : Obligations.FaultIsLatched := by
  unfold Obligations.FaultIsLatched
  intro op s f h
  exact ⟨latch f s, afterOp_eq_some.2 (.inr ⟨f, h, rfl⟩), latch_flt f s, latch_mode f s,
    fun _ _ notReset notConstruct later => afterOp_of_faulted (latch_mode f s) notReset notConstruct later⟩

/-! ### Reset and construct -/

section
variable (s : State)

theorem perform_reset : perform .reset s = .next (resetOp s) := rfl

theorem perform_construct : perform .construct s = .next (resetOp s) := rfl

/-- Beyond the font, memory reads 0x00 where no cell is listed (10_state.md R33). -/
theorem unlisted_of_ge {a : Nat} (h : 80 ≤ a) : unlisted a = 0 := List.getD_eq_default _ _ h

/-- A second reset changes nothing. -/
theorem resetOp_resetOp : resetOp (resetOp s) = resetOp s := rfl

theorem resetOp_readReg (x : Reg) : (resetOp s).readReg x = 0 := Vector.getElem_replicate _

theorem resetOp_stack (k : Fin 16) : (resetOp s).stack[k.val] = 0 := Vector.getElem_replicate _

theorem resetOp_readByte (a : Nat) : (resetOp s).readByte a = unlisted a := rfl

theorem resetOp_keyHeld (k : Nat) : (resetOp s).keyHeld k = false := BitVec.getLsbD_zero

theorem resetOp_mode : (resetOp s).mode = .run := rfl

end

/-- Settles O48: both operations leave the one reset state, element by element. -/
theorem resetState : Obligations.ResetState := by
  unfold Obligations.ResetState
  intro op s isReset
  have performs (u : State) : perform op u = .next (resetOp u) := by
    rcases isReset with rfl | rfl
    · exact perform_reset u
    · exact perform_construct u
  exact ⟨resetOp s, performs s, resetOp_readReg s, rfl, rfl, rfl, resetOp_stack s, fun a _ => resetOp_readByte s a,
    fun a beyondFont _ => (resetOp_readByte s a).trans (unlisted_of_ge beyondFont), fun _ => pixelOn_blank,
    fun k _ => resetOp_keyHeld s k, rfl, rfl, rfl, rfl, resetOp_mode s, rfl,
    (performs _).trans (congrArg _ (resetOp_resetOp s))⟩

/-! ### Timers and the tone -/

/-- Settles O49: each timer counts down by one and stops at zero. -/
theorem timerTick : Obligations.TimerTick := by
  unfold Obligations.TimerTick
  intro s hrun
  have countDown_ite (b : Byte) : (countDown b).toNat = if b.toNat ≠ 0 then b.toNat - 1 else 0 := by
    rw [countDown_toNat]
    split <;> omega
  exact ⟨tickTimers s, perform_of_run hrun _, countDown_ite s.dt, countDown_ite s.st,
    (s.setDt_onlyChanges (by simp) _).trans (State.setSt_onlyChanges _ (by simp) _)⟩

theorem toneActive_iff_toNat (s : State) : toneActive s = true ↔ s.st.toNat ≠ 0 := by
  rw [toneActive_iff, Ne, ← BitVec.toNat_inj]
  rfl

theorem tickTimes_st_toNat (n : Nat) (s : State) : (tickTimes n s).st.toNat = s.st.toNat - n := by
  induction n generalizing s with
  | zero => rfl
  | succ n ih =>
    have once : (tickTimers s).st.toNat = s.st.toNat - 1 := countDown_toNat s.st
    rw [tickTimes, ih, once]
    omega

/-- Settles O50: the level is that of ST, which `n` ticks lower by `n`, down to zero. -/
theorem toneLevel : Obligations.ToneLevel := by
  unfold Obligations.ToneLevel
  refine ⟨toneActive_iff_toNat, fun n s => ?_, fun x s => ⟨_, exec_ldStVx x s, toneActive_iff _⟩, fun s t h => ?_⟩
  · rw [Bool.eq_iff_iff, toneActive_iff_toNat, tickTimes_st_toNat, decide_eq_true_iff]
    omega
  · cases (perform_reset s).symm.trans h
    rfl

/-! ### Keys, the frame mark and the observations -/

section
variable {s : State}

theorem State.setKeys_onlyChanges {w : Footprint} (s : State) (h : Elem.key ∈ w.elems) (keys : BitVec 16) :
    OnlyChanges w s (s.setKeys keys) := by
  simp [OnlyChanges, h]

theorem setKey_of_le {k : Nat} (h : k ≤ 15) (held : Bool) (s : State) :
    setKey k held s = .next (s.setKeys (keysWith s.key k held)) := if_neg (not_lt.2 h)

theorem setKey_of_gt {k : Nat} (h : k > 15) (held : Bool) (s : State) :
    setKey k held s = .fault (.hostKeyIndexOutOfRange k) := if_pos h

theorem framebuffer_of_run (h : s.mode = .run) : framebuffer s = .ok s.fb := by
  rw [framebuffer, h]

theorem soundActive_of_run (h : s.mode = .run) : soundActive s = .ok (toneActive s) := by
  rw [soundActive, h]

end

/-- Settles O51, by the two sides of the index bound. -/
theorem setKeyAndAcknowledge : Obligations.SetKeyAndAcknowledge := by
  unfold Obligations.SetKeyAndAcknowledge
  intro k held s hrun
  simp only [perform_of_run hrun]
  refine ⟨⟨ackFrame s, rfl, rfl, s.setFbc_onlyChanges (by simp) _⟩, fun beyond => setKey_of_gt beyond held s,
    fun inside => ⟨_, setKey_of_le inside held s, fun j _ => ?_, s.setKeys_onlyChanges (by simp) _⟩⟩
  exact keysWith_getLsbD s.key k held j inside

/-- Settles O53: in `RUN` the observations return the frame and the tone level, and their effect is the state itself. -/
theorem observations : Obligations.Observations := by
  unfold Obligations.Observations
  intro s hrun
  have level : toneActive s = decide (s.st ≠ 0) := by
    rw [Bool.eq_iff_iff, toneActive_iff, decide_eq_true_iff]
  refine ⟨⟨s.fb, framebuffer_of_run hrun, fun _ _ _ _ => rfl⟩, perform_of_run hrun _, ?_, perform_of_run hrun _⟩
  rw [soundActive_of_run hrun, level]

/-! ### Loading a program -/

section
variable {bytes : List Byte} {s : State}

/-- An image of at most 3584 bytes ends inside memory, so all of it is stored (47_host_operations.md R198). -/
theorem loadImage_of_le (h : bytes.length ≤ 3584) (s : State) :
    loadImage bytes s = .next (storeAll 0x200 bytes s) := by
  rw [loadImage, if_neg (not_lt.2 h), placeBytes_eq 0x200 bytes s (.inr (by omega))]

theorem loadImage_of_gt (h : bytes.length > 3584) (s : State) :
    loadImage bytes s = .fault (.programTooLarge bytes.length) := if_pos h

theorem storeAll_readByte_add {j : Nat} (h : j < bytes.length) (a : Nat) (s : State) :
    (storeAll a bytes s).readByte (a + j) = bytes.getD j 0 := by
  rw [storeAll_readByte, if_pos (by omega), Nat.add_sub_cancel_left]

/-- The machine is as a reset leaves it, apart from KEY and the model's counter. -/
theorem untouched_iff :
    untouched s = true ↔ ∃ (keys : BitVec 16) (n : Nat), s = { State.reset with key := keys, freeCount := n } := by
  rw [untouched, decide_eq_true_iff]
  constructor
  · intro asReset
    refine ⟨s.key, s.freeCount, ?_⟩
    rw [← asReset]
  · rintro ⟨keys, n, rfl⟩
    rfl

end

/-- Settles O52: on an untouched machine by the two sides of the length bound, on every other by the refusal. -/
theorem loadProgram_storesOrRefuses : Obligations.LoadProgram := by
  unfold Obligations.LoadProgram
  intro bytes s hrun
  simp only [perform_of_run hrun]
  refine ⟨fun fresh tooLarge => ?_, fun fresh fits => ⟨_, ?_, fun _ hj => storeAll_readByte_add hj _ s, ?_⟩,
    fun used => loadProgram_of_used used bytes, untouched_iff⟩
  · exact (loadProgram_of_untouched fresh bytes).trans (loadImage_of_gt tooLarge s)
  · exact (loadProgram_of_untouched fresh bytes).trans (loadImage_of_le fits s)
  · exact storeAll_onlyChanges _ _ s fun _ hk => List.mem_map_of_mem (List.mem_range.2 hk)

end Sys2Proof.Machine

/-! PROOF. The invariant of a running machine: it holds after a reset, every host operation keeps it, and so it holds
after the boot order (10_state.md R25, 70_reset_and_hazards.md R240, R246). -/

namespace Sys2Proof.Machine

/-- Settles O58: no memory cell is listed, PC is 0x200 and every slot is 0. -/
theorem resetMeetsInvariant : Obligations.ResetMeetsInvariant := by
  unfold Obligations.ResetMeetsInvariant
  exact ⟨rfl, by decide, fun k => (congrArg BitVec.toNat (resetOp_stack State.reset k)).trans_le (by decide)⟩

section
variable {s t : State} (hi : Inv s)
include hi

/-! ### Every operation keeps the invariant -/

theorem storeAll_keeps_inv {a : Nat} {bs : List Byte} (inside : bs = [] ∨ a + bs.length ≤ 0x1000) :
    Inv (storeAll a bs s) := by
  obtain ⟨hmem, hpc, hstack⟩ := hi
  refine ⟨storeAll_wf a bs s inside hmem, ?_⟩
  obtain ⟨m, stored⟩ := storeAll_frame a bs s
  rw [stored]
  exact ⟨hpc, hstack⟩

theorem loadProgram_keeps_inv {bytes : List Byte} (h : loadProgram bytes s = .next t) : Inv t := by
  cases fresh : untouched s with
  | false => cases (loadProgram_of_used fresh bytes).symm.trans h
  | true =>
    rw [loadProgram_of_untouched fresh] at h
    by_cases fits : bytes.length ≤ 3584
    · cases (loadImage_of_le fits s).symm.trans h
      exact storeAll_keeps_inv hi (.inr (by omega))
    · cases (loadImage_of_gt (not_le.1 fits) s).symm.trans h

theorem setKey_keeps_inv {k : Nat} {held : Bool} (h : setKey k held s = .next t) : Inv t := by
  by_cases inside : k ≤ 15
  · cases (setKey_of_le inside held s).symm.trans h
    exact hi
  · cases (setKey_of_gt (not_le.1 inside) held s).symm.trans h

/-- The random byte reaches nothing that the invariant speaks of. -/
theorem execWith_keeps_inv {r : Byte} {i : Instr} (hlo : 2 ≤ s.pc.toNat) (hhi : s.pc.toNat ≤ 0x1000)
    (h : execWith r i s = .next t) : Inv t := by
  rcases execWith_cases r i s with ⟨x, kk, -, masked⟩ | same
  · cases masked.symm.trans h
    exact hi
  · exact exec_keeps_inv hi hlo hhi (same.symm.trans h)

theorem stepWith_keeps_inv {r : Byte} (h : stepWith r s = .next t) : Inv t := by
  obtain ⟨-, hcycle⟩ := whenRunning_eq_next.1 h
  obtain ⟨i, hfetch, hexec⟩ := andThen_eq_next.1 hcycle
  obtain ⟨hpc, -⟩ := fetchInstr_eq_next.1 hfetch
  have hadv := advance_pc_toNat hpc
  exact execWith_keeps_inv (advance_keeps_inv hi hpc) (by omega) (by omega) hexec

theorem effect_keeps_inv {op : HostOp} (h : effect op s = .next t) : Inv t := by
  cases op with
  | construct | reset =>
    cases h
    exact resetMeetsInvariant
  | loadProgram => exact loadProgram_keeps_inv hi h
  | setKey => exact setKey_keeps_inv hi h
  | step => exact stepWith_keeps_inv hi h
  | tickTimers | ackFrame | framebuffer | soundActive =>
    cases h
    exact hi

end

/-- Outside `RUN` an operation that goes on is a reset, or an observation, which leaves the state as it is. -/
theorem perform_keeps_runInv {op : HostOp} {s t : State} (hi : RunInv s) (h : perform op s = .next t) : RunInv t := by
  obtain ⟨hadm, heffect⟩ := perform_eq_next.1 h
  cases op with
  | construct | reset =>
    cases heffect
    exact fun _ => resetMeetsInvariant
  | framebuffer | soundActive =>
    cases heffect
    exact hi
  | _ =>
    have hrun : s.mode = .run := by simpa [admitted] using hadm
    exact fun _ => effect_keeps_inv (hi hrun) heffect

/-- Settles O60: an operation that goes on keeps the invariant, and after a fault the mode is not `RUN`. -/
theorem hostOperationKeepsInvariant : Obligations.HostOperationKeepsInvariant := by
  unfold Obligations.HostOperationKeepsInvariant
  intro op s t hi h
  rcases afterOp_eq_some.1 h with next | ⟨f, -, rfl⟩
  · exact perform_keeps_runInv hi next
  · intro hrun
    cases (latch_mode f s).symm.trans hrun

/-! ### The boot order -/

/-- After a reset the machine is untouched, whatever its counter of free values. -/
theorem untouched_resetOp (s : State) : untouched (resetOp s) = true := untouched_iff.2 ⟨0, s.freeCount, rfl⟩

/-- Settles O57: the load finds the machine as a reset leaves it, and changes nothing but the bytes of the image. -/
theorem bootOrder : Obligations.BootOrder := by
  unfold Obligations.BootOrder
  intro bytes s fits
  obtain ⟨-, load, -⟩ := loadProgram_storesOrRefuses bytes (resetOp s) (resetOp_mode s)
  obtain ⟨t, loaded, image, frame⟩ := load (untouched_resetOp s) fits
  have afterLoad : afterOp (.loadProgram bytes) (resetOp s) = some t := afterOp_eq_some.2 (.inl loaded)
  obtain ⟨-, -, -, pc, -, -, -, -, -, -, -, flt, initialised⟩ := frame
  have hrun : t.mode = .run := t.mode_eq_run.2 ⟨initialised, flt⟩
  have inv : RunInv t := hostOperationKeepsInvariant _ (resetOp s) t (fun _ => resetMeetsInvariant) afterLoad
  have booted : session [.reset, .loadProgram bytes] s = some t := by
    have first : afterOp .reset s = some (resetOp s) := rfl
    simp only [session, first, afterLoad, Option.bind_some]
  exact ⟨t, booted, hrun, congrArg BitVec.toNat (pc (by simp)), image, inv hrun⟩

end Sys2Proof.Machine
